-- ==== Sys2Proof/Word.lean ====
section
/-! DEFINITION. The value types of the machine (00_scope.md R12, R13, R15): every register, memory byte and immediate is
an unsigned number of a stated width; register and key indices are numbers 0..15. -/

namespace Sys2Proof

/-- An 8-bit value: a general register, a memory byte, a timer, an immediate `kk` (R13, R30, R41). -/
abbrev Byte := BitVec 8

/-- A 16-bit value: `I`, `pc`, a call-stack entry, an instruction word (R34, R35, R38, R80). -/
abbrev Word16 := BitVec 16

/-- A 12-bit address operand `nnn` (R15). -/
abbrev Addr12 := BitVec 12

/-- The index of a general register `V0`..`VF` (R30). -/
abbrev RegIdx := Fin 16

/-- A key index 0..15 (R45). -/
abbrev KeyIdx := Fin 16

/-- `zext_16` of an 8-bit value (R13). -/
def zext16 (b : Byte) : Word16 := b.setWidth 16

/-- `zext_16(nnn)`: the 16-bit value a 12-bit address operand stands for (R83). -/
def addr16 (nnn : Addr12) : Word16 := nnn.setWidth 16

end Sys2Proof
end

