-- ==== Sys2Proof/Config.lean ====
section
/-! DEFINITION. What an implementation fixes: the fixed values of 00_scope.md R10, the named parameters of R11 with the
defaults the spec decides, and the free inputs of a tick (R8), which have no value in this model. -/

namespace Sys2Proof

namespace Config

/-- `MEM_SIZE`: the bytes of memory (R10). -/
def memSize : Nat := 4096

/-- `PROG_BASE`: where a program image is loaded and where `pc` starts (R10, R62). -/
def progBase : Nat := 0x200

/-- `FONT_BASE`: where the font lies (R10). -/
def fontBase : Nat := 0x000

/-- `GLYPH_BYTES`: the bytes of one font glyph (R10). -/
def glyphBytes : Nat := 5

/-- `FB_W`: the columns of the framebuffer (R10). -/
def fbWidth : Nat := 64

/-- `FB_H`: the rows of the framebuffer (R10). -/
def fbHeight : Nat := 32

/-- The default `FONT`: glyphs 0..F, 5 bytes each, top row first (R261, R262). The spec takes the bytes from general
knowledge (D21); log entry 4. -/
def defaultFont : Vector Byte 80 := #v[
  0xF0, 0x90, 0x90, 0x90, 0xF0,
  0x20, 0x60, 0x20, 0x20, 0x70,
  0xF0, 0x10, 0xF0, 0x80, 0xF0,
  0xF0, 0x10, 0xF0, 0x10, 0xF0,
  0x90, 0x90, 0xF0, 0x10, 0x10,
  0xF0, 0x80, 0xF0, 0x10, 0xF0,
  0xF0, 0x80, 0xF0, 0x90, 0xF0,
  0xF0, 0x10, 0x20, 0x40, 0x40,
  0xF0, 0x90, 0xF0, 0x90, 0xF0,
  0xF0, 0x90, 0xF0, 0x10, 0xF0,
  0xF0, 0x90, 0xF0, 0x90, 0x90,
  0xE0, 0x90, 0xE0, 0x90, 0xE0,
  0xF0, 0x80, 0x80, 0x80, 0xF0,
  0xE0, 0x90, 0x90, 0x90, 0xE0,
  0xF0, 0x80, 0xF0, 0x80, 0xF0,
  0xF0, 0x80, 0xF0, 0x80, 0x80]

/-- The default `KEYMAP`: host symbol and key index, the keypad rows `1 2 3 C`, `4 5 6 D`, `7 8 9 E`, `A 0 B F` bound in the
same positions to the host keys `1 2 3 4`, `Q W E R`, `A S D F`, `Z X C V` (R191). It is outside the block and may vary;
log entry 5. -/
def defaultKeymap : List (Char × KeyIdx) := [
  ('1', 0x1), ('2', 0x2), ('3', 0x3), ('4', 0xC),
  ('Q', 0x4), ('W', 0x5), ('E', 0x6), ('R', 0xD),
  ('A', 0x7), ('S', 0x8), ('D', 0x9), ('F', 0xE),
  ('Z', 0xA), ('X', 0x0), ('C', 0xB), ('V', 0xF)]

end Config

/-- The named parameters of the block (R11). A model may take them as an argument; here they stand in State (log entry 3). -/
structure Params where
  /-- `FONT`: the 80 bytes `construct` puts at 0x000..0x04F (R261). -/
  font : Vector Byte 80
  /-- `KEYMAP`: host key symbol to key index (R191). -/
  keymap : List (Char × KeyIdx)
  /-- `P_CLASS0_LOWBYTE_ONLY`: class 0 matches only `w[7:0]` (R87). -/
  class0LowbyteOnly : Bool
  /-- `P_SKIPREG_STRICT`: classes 5 and 9 decode only with `w[3:0] = 0` (R88). -/
  skipRegStrict : Bool
  /-- `P_SHIFT_USES_VY`: the shifts shift `V[y]` into `V[x]` (R154). -/
  shiftUsesVy : Bool
  /-- `P_LOGIC_RESETS_VF`: OR, AND and XOR write 0 to VF (R148). -/
  logicResetsVf : Bool
  /-- `P_LDI_INCREMENTS_I`: the bulk transfers add `x + 1` to `I` (R218). -/
  ldiIncrementsI : Bool
  /-- `P_JUMP_OFFSET_USES_VX`: `JP V0, nnn` adds `V[x]` (R124). -/
  jumpOffsetUsesVx : Bool
deriving DecidableEq, Repr

/-- The values the spec decides (R11). -/
def Params.default : Params where
  font := Config.defaultFont
  keymap := Config.defaultKeymap
  class0LowbyteOnly := false
  skipRegStrict := false
  shiftUsesVy := false
  logicResetsVf := false
  ldiIncrementsI := false
  jumpOffsetUsesVx := false

/-- The inputs of one tick (R8): each is a free draw, of which the model must admit every value. -/
structure TickInputs where
  /-- `timer_due`: at least `TIMER_PERIOD_MS` has elapsed since the last timer update (R243). -/
  timerDue : Bool
  /-- `rnd`: the byte an `RND` of this tick uses (R157). -/
  rnd : Byte
  /-- The width the render target reports (R184); unsigned, of no stated width (log entry 14). -/
  targetWidth : Nat
  /-- The height the render target reports (R184). -/
  targetHeight : Nat
deriving DecidableEq, Repr, Inhabited

/-- FREE VALUE. The inputs of the `n`-th tick whose inputs the host's script does not give. It has no body, so that nothing
can be proved about them but what holds for all inputs (R8; log entry 2). -/
opaque Config.freeInputs : Nat → TickInputs

end Sys2Proof
end

