-- ==== Sys2Proof/Syntax.lean ====
section
/-! DEFINITION. The decoded instruction type: the 34 tags of 30_encoding.md R93, one constructor for each row of
spec/opcode_table.json, with the operands of R15 and R83. -/

namespace Sys2Proof

/-- A decoded, tagged instruction (R93). `x`, `y` are register indices, `kk` an 8-bit immediate, `nnn` a 12-bit address, `n` a
row count 0..15. -/
inductive Instr where
  /-- `CLS` (R170). -/
  | clearDisplay
  /-- `RET`, tag `Return` (R122). -/
  | ret
  /-- `JP nnn` (R120). -/
  | jump (nnn : Addr12)
  /-- `CALL nnn` (R121). -/
  | callSubroutine (nnn : Addr12)
  /-- `SE Vx, kk` (R125). -/
  | skipIfEqImm (x : RegIdx) (kk : Byte)
  /-- `SNE Vx, kk` (R126). -/
  | skipIfNeImm (x : RegIdx) (kk : Byte)
  /-- `SE Vx, Vy` (R127). -/
  | skipIfEqReg (x y : RegIdx)
  /-- `LD Vx, kk` (R140). -/
  | setImm (x : RegIdx) (kk : Byte)
  /-- `ADD Vx, kk` (R141). -/
  | addImm (x : RegIdx) (kk : Byte)
  /-- `LD Vx, Vy` (R142). -/
  | setReg (x y : RegIdx)
  /-- `OR Vx, Vy` (R143). -/
  | orRegs (x y : RegIdx)
  /-- `AND Vx, Vy` (R144). -/
  | andRegs (x y : RegIdx)
  /-- `XOR Vx, Vy` (R145). -/
  | xorRegs (x y : RegIdx)
  /-- `ADD Vx, Vy` (R146). -/
  | addRegs (x y : RegIdx)
  /-- `SUB Vx, Vy` (R147). -/
  | subRegs (x y : RegIdx)
  /-- `SHR Vx {, Vy}` (R150). -/
  | shiftRight (x y : RegIdx)
  /-- `SUBN Vx, Vy` (R149). -/
  | subReversed (x y : RegIdx)
  /-- `SHL Vx {, Vy}` (R151). -/
  | shiftLeft (x y : RegIdx)
  /-- `SNE Vx, Vy` (R128). -/
  | skipIfNeReg (x y : RegIdx)
  /-- `LD I, nnn` (R210). -/
  | setIndex (nnn : Addr12)
  /-- `JP V0, nnn` (R124), with `x = w[11:8]` also carried, for `P_JUMP_OFFSET_USES_VX` (R93). -/
  | jumpOffset (nnn : Addr12) (x : RegIdx)
  /-- `RND Vx, kk` (R158). -/
  | randomAnd (x : RegIdx) (kk : Byte)
  /-- `DRW Vx, Vy, n` (R171). -/
  | drawSprite (x y : RegIdx) (n : Fin 16)
  /-- `SKP Vx` (R193). -/
  | skipIfKey (x : RegIdx)
  /-- `SKNP Vx` (R194). -/
  | skipIfNotKey (x : RegIdx)
  /-- `LD Vx, DT` (R211). -/
  | getDelay (x : RegIdx)
  /-- `LD Vx, K` (R197). -/
  | loadKey (x : RegIdx)
  /-- `LD DT, Vx` (R212). -/
  | setDelay (x : RegIdx)
  /-- `LD ST, Vx` (R213). -/
  | setSound (x : RegIdx)
  /-- `ADD I, Vx` (R214). -/
  | addIndex (x : RegIdx)
  /-- `LD F, Vx` (R215). -/
  | setIndexToDigit (x : RegIdx)
  /-- `LD B, Vx` (R216). -/
  | storeBcd (x : RegIdx)
  /-- `LD [I], Vx` (R217). -/
  | storeRegs (x : RegIdx)
  /-- `LD Vx, [I]` (R219). -/
  | loadRegs (x : RegIdx)
deriving DecidableEq, Repr

end Sys2Proof
end

