-- ==== Sys2Proof/Decode.lean ====
section
/-! DEFINITION. The instruction decoder (30_encoding.md R80..R95): a pure total function from a 16-bit word to one of the 34
instructions or a decode failure that carries the word; and the encoder, written from the same table of encodings. -/

namespace Sys2Proof

/-- The big-endian instruction word of two consecutive bytes: the lower address supplies `w[15:8]` (R68). -/
def wordOfBytes (hi lo : Byte) : Word16 := hi ++ lo

/-- The opcode class `w[15:12]` (R85). -/
def fieldClass (w : Word16) : Fin 16 := (w.extractLsb' 12 4).toFin

/-- `x = w[11:8]` (R82). -/
def fieldX (w : Word16) : RegIdx := (w.extractLsb' 8 4).toFin

/-- `y = w[7:4]` (R82). -/
def fieldY (w : Word16) : RegIdx := (w.extractLsb' 4 4).toFin

/-- `n = w[3:0]`, the row count of DRW and the selector of class 8 (R82, R86). -/
def fieldN (w : Word16) : Fin 16 := (w.extractLsb' 0 4).toFin

/-- `kk = w[7:0]`, the immediate, and the selector of classes 0xE and 0xF (R82, R86). -/
def fieldKk (w : Word16) : Byte := w.extractLsb' 0 8

/-- `nnn = w[11:0]` (R82). -/
def fieldNnn (w : Word16) : Addr12 := w.extractLsb' 0 12

/-- What the decoder answers: a tagged instruction or `DecodeFailure(w)` carrying the raw word (R84). -/
inductive Decoded where
  /-- One of the 34 instructions. -/
  | instr (i : Instr)
  /-- No instruction: the word executes as a no-op (R91, R104). -/
  | decodeFailure (w : Word16)
deriving DecidableEq, Repr

/-- Class 0x0: the whole word selects `CLS` or `RET`; with `P_CLASS0_LOWBYTE_ONLY` only `w[7:0]` does (R87). -/
def decodeClass0 (p : Params) (w : Word16) : Decoded :=
  let selector := if p.class0LowbyteOnly then w &&& 0x00FF else w
  if selector = 0x00E0 then .instr .clearDisplay
  else if selector = 0x00EE then .instr .ret
  else .decodeFailure w

/-- Classes 0x5 and 0x9: `w[3:0]` is ignored; with `P_SKIPREG_STRICT` it must be 0 (R88). -/
def decodeSkipReg (p : Params) (i : Instr) (w : Word16) : Decoded :=
  if p.skipRegStrict && fieldN w != 0 then .decodeFailure w else .instr i

/-- Class 0x8: `w[3:0]` selects the variant (R86, R95 rows 10 to 18). -/
def decodeClass8 (w : Word16) : Decoded :=
  let x := fieldX w
  let y := fieldY w
  match fieldN w with
  | 0x0 => .instr (.setReg x y)
  | 0x1 => .instr (.orRegs x y)
  | 0x2 => .instr (.andRegs x y)
  | 0x3 => .instr (.xorRegs x y)
  | 0x4 => .instr (.addRegs x y)
  | 0x5 => .instr (.subRegs x y)
  | 0x6 => .instr (.shiftRight x y)
  | 0x7 => .instr (.subReversed x y)
  | 0xE => .instr (.shiftLeft x y)
  | _ => .decodeFailure w

/-- Class 0xE: `w[7:0]` selects the variant (R86, R95 rows 24, 25). -/
def decodeClassE (w : Word16) : Decoded :=
  if fieldKk w = 0x9E then .instr (.skipIfKey (fieldX w))
  else if fieldKk w = 0xA1 then .instr (.skipIfNotKey (fieldX w))
  else .decodeFailure w

/-- Class 0xF: `w[7:0]` selects the variant (R86, R95 rows 26 to 34). -/
def decodeClassF (w : Word16) : Decoded :=
  let x := fieldX w
  let kk := fieldKk w
  if kk = 0x07 then .instr (.getDelay x)
  else if kk = 0x0A then .instr (.loadKey x)
  else if kk = 0x15 then .instr (.setDelay x)
  else if kk = 0x18 then .instr (.setSound x)
  else if kk = 0x1E then .instr (.addIndex x)
  else if kk = 0x29 then .instr (.setIndexToDigit x)
  else if kk = 0x33 then .instr (.storeBcd x)
  else if kk = 0x55 then .instr (.storeRegs x)
  else if kk = 0x65 then .instr (.loadRegs x)
  else .decodeFailure w

/-- The decoder: first on the opcode class, then, in classes 0x0, 0x8, 0xE and 0xF, on the selector (R84..R90).
The source's "unrecognized top nibble" is the last arm, which no word reaches (R85). -/
def decode (p : Params) (w : Word16) : Decoded :=
  match fieldClass w with
  | 0x0 => decodeClass0 p w
  | 0x1 => .instr (.jump (fieldNnn w))
  | 0x2 => .instr (.callSubroutine (fieldNnn w))
  | 0x3 => .instr (.skipIfEqImm (fieldX w) (fieldKk w))
  | 0x4 => .instr (.skipIfNeImm (fieldX w) (fieldKk w))
  | 0x5 => decodeSkipReg p (.skipIfEqReg (fieldX w) (fieldY w)) w
  | 0x6 => .instr (.setImm (fieldX w) (fieldKk w))
  | 0x7 => .instr (.addImm (fieldX w) (fieldKk w))
  | 0x8 => decodeClass8 w
  | 0x9 => decodeSkipReg p (.skipIfNeReg (fieldX w) (fieldY w)) w
  | 0xA => .instr (.setIndex (fieldNnn w))
  | 0xB => .instr (.jumpOffset (fieldNnn w) (fieldX w))
  | 0xC => .instr (.randomAnd (fieldX w) (fieldKk w))
  | 0xD => .instr (.drawSprite (fieldX w) (fieldY w) (fieldN w))
  | 0xE => decodeClassE w
  | 0xF => decodeClassF w
  | _ => .decodeFailure w

/-- The decoder on bytes as memory stores them, the byte of the lower address first (R68). Every instruction is one word
(R80), so any other number of bytes is no instruction. -/
def decodeBytes (p : Params) : List Byte → Option Instr
  | [hi, lo] =>
    match decode p (wordOfBytes hi lo) with
    | .instr i => some i
    | .decodeFailure _ => none
  | _ => none

/-- Format NNN (R81). -/
def encodeNnn (c : BitVec 4) (nnn : Addr12) : Word16 := c ++ nnn

/-- Format XKK, and XS with `kk` the selector (R81). -/
def encodeXkk (c : BitVec 4) (x : RegIdx) (kk : Byte) : Word16 := (c ++ BitVec.ofFin (w := 4) x : BitVec 8) ++ kk

/-- Formats XYS and XYN (R81). -/
def encodeXyn (c : BitVec 4) (x y n : Fin 16) : Word16 :=
  (c ++ BitVec.ofFin (w := 4) x : BitVec 8) ++ (BitVec.ofFin (w := 4) y ++ BitVec.ofFin (w := 4) n : BitVec 8)

/-- The word of an instruction (R95), for well-formed instructions. The ignored low nibble of classes 5 and 9 is written 0,
which decodes under both settings of `P_SKIPREG_STRICT` (log entry 11). -/
def encode : Instr → Word16
  | .clearDisplay => 0x00E0
  | .ret => 0x00EE
  | .jump nnn => encodeNnn 0x1 nnn
  | .callSubroutine nnn => encodeNnn 0x2 nnn
  | .skipIfEqImm x kk => encodeXkk 0x3 x kk
  | .skipIfNeImm x kk => encodeXkk 0x4 x kk
  | .skipIfEqReg x y => encodeXyn 0x5 x y 0x0
  | .setImm x kk => encodeXkk 0x6 x kk
  | .addImm x kk => encodeXkk 0x7 x kk
  | .setReg x y => encodeXyn 0x8 x y 0x0
  | .orRegs x y => encodeXyn 0x8 x y 0x1
  | .andRegs x y => encodeXyn 0x8 x y 0x2
  | .xorRegs x y => encodeXyn 0x8 x y 0x3
  | .addRegs x y => encodeXyn 0x8 x y 0x4
  | .subRegs x y => encodeXyn 0x8 x y 0x5
  | .shiftRight x y => encodeXyn 0x8 x y 0x6
  | .subReversed x y => encodeXyn 0x8 x y 0x7
  | .shiftLeft x y => encodeXyn 0x8 x y 0xE
  | .skipIfNeReg x y => encodeXyn 0x9 x y 0x0
  | .setIndex nnn => encodeNnn 0xA nnn
  | .jumpOffset nnn _ => encodeNnn 0xB nnn
  | .randomAnd x kk => encodeXkk 0xC x kk
  | .drawSprite x y n => encodeXyn 0xD x y n
  | .skipIfKey x => encodeXkk 0xE x 0x9E
  | .skipIfNotKey x => encodeXkk 0xE x 0xA1
  | .getDelay x => encodeXkk 0xF x 0x07
  | .loadKey x => encodeXkk 0xF x 0x0A
  | .setDelay x => encodeXkk 0xF x 0x15
  | .setSound x => encodeXkk 0xF x 0x18
  | .addIndex x => encodeXkk 0xF x 0x1E
  | .setIndexToDigit x => encodeXkk 0xF x 0x29
  | .storeBcd x => encodeXkk 0xF x 0x33
  | .storeRegs x => encodeXkk 0xF x 0x55
  | .loadRegs x => encodeXkk 0xF x 0x65

/-- The `mask` of an instruction's row in the opcode map, with the row variants of the two decoder parameters (R95). -/
def maskOf (p : Params) : Instr → Word16
  | .clearDisplay => if p.class0LowbyteOnly then 0xF0FF else 0xFFFF
  | .ret => if p.class0LowbyteOnly then 0xF0FF else 0xFFFF
  | .jump _ => 0xF000
  | .callSubroutine _ => 0xF000
  | .skipIfEqImm _ _ => 0xF000
  | .skipIfNeImm _ _ => 0xF000
  | .skipIfEqReg _ _ => if p.skipRegStrict then 0xF00F else 0xF000
  | .setImm _ _ => 0xF000
  | .addImm _ _ => 0xF000
  | .setReg _ _ => 0xF00F
  | .orRegs _ _ => 0xF00F
  | .andRegs _ _ => 0xF00F
  | .xorRegs _ _ => 0xF00F
  | .addRegs _ _ => 0xF00F
  | .subRegs _ _ => 0xF00F
  | .shiftRight _ _ => 0xF00F
  | .subReversed _ _ => 0xF00F
  | .shiftLeft _ _ => 0xF00F
  | .skipIfNeReg _ _ => if p.skipRegStrict then 0xF00F else 0xF000
  | .setIndex _ => 0xF000
  | .jumpOffset _ _ => 0xF000
  | .randomAnd _ _ => 0xF000
  | .drawSprite _ _ _ => 0xF000
  | .skipIfKey _ => 0xF0FF
  | .skipIfNotKey _ => 0xF0FF
  | .getDelay _ => 0xF0FF
  | .loadKey _ => 0xF0FF
  | .setDelay _ => 0xF0FF
  | .setSound _ => 0xF0FF
  | .addIndex _ => 0xF0FF
  | .setIndexToDigit _ => 0xF0FF
  | .storeBcd _ => 0xF0FF
  | .storeRegs _ => 0xF0FF
  | .loadRegs _ => 0xF0FF

/-- The `match` of an instruction's row in the opcode map (R95). -/
def matchOf : Instr → Word16
  | .clearDisplay => 0x00E0
  | .ret => 0x00EE
  | .jump _ => 0x1000
  | .callSubroutine _ => 0x2000
  | .skipIfEqImm _ _ => 0x3000
  | .skipIfNeImm _ _ => 0x4000
  | .skipIfEqReg _ _ => 0x5000
  | .setImm _ _ => 0x6000
  | .addImm _ _ => 0x7000
  | .setReg _ _ => 0x8000
  | .orRegs _ _ => 0x8001
  | .andRegs _ _ => 0x8002
  | .xorRegs _ _ => 0x8003
  | .addRegs _ _ => 0x8004
  | .subRegs _ _ => 0x8005
  | .shiftRight _ _ => 0x8006
  | .subReversed _ _ => 0x8007
  | .shiftLeft _ _ => 0x800E
  | .skipIfNeReg _ _ => 0x9000
  | .setIndex _ => 0xA000
  | .jumpOffset _ _ => 0xB000
  | .randomAnd _ _ => 0xC000
  | .drawSprite _ _ _ => 0xD000
  | .skipIfKey _ => 0xE09E
  | .skipIfNotKey _ => 0xE0A1
  | .getDelay _ => 0xF007
  | .loadKey _ => 0xF00A
  | .setDelay _ => 0xF015
  | .setSound _ => 0xF018
  | .addIndex _ => 0xF01E
  | .setIndexToDigit _ => 0xF029
  | .storeBcd _ => 0xF033
  | .storeRegs _ => 0xF055
  | .loadRegs _ => 0xF065

/-- The two bytes of an instruction as memory stores them, the high byte first (R68). -/
def bytesOfTableWord (nbits w : Nat) : List Byte :=
  let word : Word16 := BitVec.ofNat 16 (w % 2 ^ nbits)
  [word.extractLsb' 8 8, word.extractLsb' 0 8]

/-- The instruction the decoder, under the default parameters, reads from a word numbered as spec/opcode_table.json numbers
it (bit 0 the least significant bit of the one 16-bit word). -/
def decodeTableWord (nbits w : Nat) : Option Instr := decodeBytes .default (bytesOfTableWord nbits w)

end Sys2Proof
end

