-- ==== Sys2Proof/Machine/State.lean ====
section
/-! DEFINITION. The state of the block (10_state.md): the tuple `(mem, V, I, pc, S, sp, DT, ST, FB, keys, run, fault)`, the
parameters of 00_scope.md R11, and, in one field of the model's own, the environment's side of the block's boundary. All of
it plain data. -/

namespace Sys2Proof.Machine

/-- Memory: the bytes that differ from what an unlisted address reads as, `Memory.resetByte` of Ops.lean, by rising address
(log entry 4). -/
abbrev Memory := List Host.Cell

/-- The framebuffer: 32 rows of 64 cells, `true` meaning lit (R43). -/
abbrev Framebuffer := Vector (Vector Bool 64) 32

/-- The run state (R47). -/
inductive RunState where
  /-- Instructions execute. -/
  | running
  /-- `LD Vx, K` found no key: the wait for a key for register `x` (R106, R107). -/
  | awaitingKey (x : RegIdx)
  /-- A fatal fault was raised: ticks do nothing (R101, R234). -/
  | faulted
deriving DecidableEq, Repr

/-- The causes of R232. -/
inductive Cause where
  /-- No fault has occurred. -/
  | none
  /-- `CALL` at `sp = 15`. -/
  | stackOverflow
  /-- `RET` at `sp = 0`. -/
  | stackUnderflow
  /-- A fetch at `pc >= 0x0FFF`. -/
  | fetchBounds
  /-- A read at or above 0x1000. -/
  | memReadBounds
  /-- A write at or above 0x1000. -/
  | memWriteBounds
deriving DecidableEq, Repr

/-- The code of a cause (R232). -/
def Cause.code : Cause → Nat
  | .none => 0
  | .stackOverflow => 1
  | .stackUnderflow => 2
  | .fetchBounds => 3
  | .memReadBounds => 4
  | .memWriteBounds => 5

/-- The fault record (R49). -/
structure FaultRecord where
  /-- `cause`. -/
  cause : Cause
  /-- `fault_pc`: the address of the instruction whose fetch or execution faulted. -/
  faultPc : Word16
  /-- `fault_addr`: the offending memory address for a bounds fault, 0 otherwise. -/
  faultAddr : Word16
deriving DecidableEq, Repr

/-- The record when no fault has occurred (R53). -/
def FaultRecord.zero : FaultRecord := ⟨.none, 0, 0⟩

/-- The two colours of the render-target contract (R185). -/
inductive Colour where
  /-- An unlit cell. -/
  | black
  /-- A lit cell. -/
  | white
deriving DecidableEq, Repr

/-- One call the block makes on the render target (R183, R248). -/
inductive RenderCall where
  /-- `clear()`. -/
  | clear
  /-- `fill_rect(x, y, w, h, color)`. -/
  | fillRect (x y w h : Nat) (colour : Colour)
  /-- `present()`. -/
  | present
deriving DecidableEq, Repr

/-- What the latest transaction gave its environment (R7, R9; log entry 9). -/
inductive Output where
  /-- Nothing: `construct`, `push_key`, a faulting tick, a tick in `Faulted`. -/
  | silent
  /-- `load` returned `Ok`. -/
  | loadOk
  /-- `load` returned `LoadOverflow`. -/
  | loadOverflow
  /-- The render sequence of a non-faulting tick. -/
  | render (calls : List RenderCall)
deriving DecidableEq, Repr

/-- The transactions of the host (R6, R7), and its key symbols before KEYMAP (R191). -/
inductive HostAction where
  /-- `construct()`. -/
  | construct
  /-- `load(bytes)`. -/
  | load (bytes : List Byte)
  /-- `push_key(k)`. -/
  | pushKey (k : KeyIdx)
  /-- A host key symbol, which KEYMAP turns into a `push_key` or into nothing. -/
  | keySymbol (c : Char)
  /-- `tick(timer_due, rnd, target_size)`. -/
  | tick (inputs : TickInputs)
deriving DecidableEq, Repr

/-- The environment's side of the boundary: the model's own, no state of the block (log entries 1, 2, 9). -/
structure Env where
  /-- The transactions the host is still going to issue, the next one first; when none is left it ticks. -/
  host : List HostAction
  /-- How many ticks took their inputs from the free value `Config.freeInputs`. -/
  draws : Nat
  /-- The inputs of the current tick, or between ticks of the latest one. -/
  inputs : TickInputs
  /-- What the latest transaction gave its environment. -/
  output : Output
deriving DecidableEq, Repr

/-- The state of the machine. -/
structure State where
  /-- Memory (R46, R60). -/
  mem : Memory
  /-- `V0`..`VF` (R30). -/
  v : Vector Byte 16
  /-- `I` (R34). -/
  i : Word16
  /-- `pc` (R35). -/
  pc : Word16
  /-- `S[0]`..`S[15]` (R38). -/
  stack : Vector Word16 16
  /-- `sp`, 0..15 (R39). -/
  sp : Fin 16
  /-- `DT` (R41). -/
  dt : Byte
  /-- `ST` (R42). -/
  st : Byte
  /-- `FB` (R43). -/
  fb : Framebuffer
  /-- `keys`, oldest first (R45, R190). -/
  keys : List KeyIdx
  /-- `run` (R47). -/
  run : RunState
  /-- `fault` (R49). -/
  fault : FaultRecord
  /-- The parameters (R11); nothing writes them (log entry 3). -/
  params : Params
  /-- The model's own field. -/
  env : Env
deriving DecidableEq, Repr

/-- Why a step could stop with a fault. It has NO constructor: the spec gives every word an effect (R92), and a fatal fault of
the block (R231, R232) is itself a state the machine goes to, `RunState.faulted` with its record, so that no step ever stops
with a fault of this type (log entry 6). -/
inductive Fault
deriving DecidableEq, Repr

/-- Why a step could have no meaning. -/
inductive Refusal where
  /-- Raised by an arm of `exec` whose instruction has no meaning yet: none is left. Safe: the run stops. -/
  | notModelled (mnemonic : String)
deriving DecidableEq, Repr

/-- The unlit framebuffer (R170, R53). -/
def Framebuffer.blank : Framebuffer := Vector.replicate 32 (Vector.replicate 64 false)

/-- The machine right after `construct()` with the default parameters (R53, R260). The fields of `env` are no state of the
block: their values are the model's choice (log entries 1, 2, 9). -/
def State.reset : State where
  mem := []
  v := Vector.replicate 16 0
  i := 0
  pc := 0x200
  stack := Vector.replicate 16 0
  sp := 0
  dt := 0
  st := 0
  fb := Framebuffer.blank
  keys := []
  run := .running
  fault := FaultRecord.zero
  params := .default
  env := { host := [], draws := 0, inputs := ⟨false, 0, 0, 0⟩, output := .silent }

end Sys2Proof.Machine
end

