-- ==== Sys2Proof/Machine/Ops.lean ====
section
/-! DEFINITION. The shared operations over registers, memory, the program counter, the call stack, the key queue and the
framebuffer, and the one operation that raises a fatal fault. -/

namespace Sys2Proof.Machine

/-! Memory (20_memory.md) -/

/-- What an address that memory does not list reads as: the contents after `construct` with the default FONT, that is the
font at 0x000..0x04F and 0 above (R53, R61). -/
def Memory.resetByte (a : Nat) : Byte := Config.defaultFont[a]?.getD 0

/-- The byte at an address. -/
def Memory.read : Memory → Nat → Byte
  | [], a => Memory.resetByte a
  | (b, u) :: m, a => if b = a then u else Memory.read m a

/-- The list without any entry for an address. -/
def Memory.erase (m : Memory) (a : Nat) : Memory := m.filter fun c => c.1 ≠ a

/-- Put an entry before the first higher address. -/
def Memory.insert : Memory → Nat → Byte → Memory
  | [], a, u => [(a, u)]
  | (b, v) :: m, a, u => if a < b then (a, u) :: (b, v) :: m else (b, v) :: Memory.insert m a u

/-- `mem[a] <- u` (R65), in canonical form: no entry where the address would read `u` unlisted. -/
def Memory.write (m : Memory) (a : Nat) (u : Byte) : Memory :=
  if u = Memory.resetByte a then m.erase a else (m.erase a).insert a u

/-- `mem[a + i] <- us[i]`, in rising order. -/
def Memory.writeList (m : Memory) (a : Nat) : List Byte → Memory
  | [] => m
  | u :: us => Memory.writeList (m.write a u) (a + 1) us

/-- The canonical form: addresses strictly rising and inside memory (R60), no entry equal to what an unlisted address reads
as. -/
abbrev Memory.wf (m : Memory) : Prop :=
  m.Pairwise (fun c d => c.1 < d.1) ∧ ∀ c ∈ m, c.1 < Config.memSize ∧ c.2 ≠ Memory.resetByte c.1

/-- `MemRead(a, 1)` below 4096 (R64). The fault branch of R64 is `rangeFault`, which every meaning asks first (R66). -/
def State.memByte (s : State) (a : Nat) : Byte := s.mem.read a

/-- The bytes `mem[a] .. mem[a + len - 1]`. -/
def State.memBytes (s : State) (a len : Nat) : List Byte := (List.range len).map fun k => s.memByte (a + k)

/-- `MemWrite` of the bytes `us` to `a`, `a + 1`, ... below 4096 (R65); the fault branch is `rangeFault`. -/
def State.storeBytes (s : State) (a : Nat) (us : List Byte) : State := { s with mem := s.mem.writeList a us }

/-- The bounds check of an access to `len` bytes from `base` (R64, R65, R66): nothing when the highest address is below 4096
or no byte is accessed, otherwise the lowest out-of-range address `max(base, 4096)`. Addresses do not wrap. -/
def rangeFault (base len : Nat) : Option Word16 :=
  if len ≠ 0 ∧ base + len > Config.memSize then some (BitVec.ofNat 16 (max base Config.memSize)) else none

/-! Registers (10_state.md) -/

/-- The index of VF, the shared status flag (R32). -/
abbrev VF : RegIdx := 0xF

/-- `V[x]`. -/
def State.getV (s : State) (x : RegIdx) : Byte := s.v.get x

/-- `V[x] <- b`. -/
def State.setV (s : State) (x : RegIdx) (b : Byte) : State := { s with v := s.v.set x.val b x.isLt }

/-- `pc <- target`. -/
def State.setPc (s : State) (target : Word16) : State := { s with pc := target }

/-- `I <- a`. -/
def State.setI (s : State) (a : Word16) : State := { s with i := a }

/-- `if c { pc <- pc + 2 }`, the skip (R129); modulo 2^16 (R37). -/
def State.skipIf (s : State) (c : Bool) : State := if c then s.setPc (s.pc + 2) else s

/-! The call stack (R38, R39) -/

/-- `S[j]`. -/
def State.getS (s : State) (j : Fin 16) : Word16 := s.stack.get j

/-- `sp <- sp + 1; S[sp] <- a`, for `sp < 15` (R121). -/
def State.push (s : State) (a : Word16) : State :=
  { s with sp := s.sp + 1, stack := s.stack.set (s.sp + 1).val a (s.sp + 1).isLt }

/-- `pc <- S[sp]; sp <- sp - 1`, for `sp > 0`; the entry keeps its value (R122, R40). -/
def State.popToPc (s : State) : State := { s with pc := s.getS s.sp, sp := s.sp - 1 }

/-! The key queue (R45, R190, R192) -/

/-- `KeyPop()`: the most recently pushed key and the state without it; nothing when the queue is empty (R192). -/
def State.keyPop (s : State) : Option (KeyIdx × State) :=
  match s.keys.getLast? with
  | none => none
  | some k => some (k, { s with keys := s.keys.dropLast })

/-- `zext_8` of a key index (R193). -/
def keyByte (k : KeyIdx) : Byte := BitVec.ofNat 8 k.val

/-! The framebuffer (R43) -/

/-- `FB[r][c]`; outside the 32 rows and 64 columns there is no cell, which reads unlit. -/
def Framebuffer.cell (fb : Framebuffer) (r c : Nat) : Bool :=
  match fb[r]? with
  | none => false
  | some row => row[c]?.getD false

/-! Fatal faults (R231) -/

/-- `raise Fault(cause, addr)` of the instruction at `pcOfInstr`: the core goes to `Faulted` and the record is filled; nothing
else changes, and there is no trap entry, no handler and no return (R231, R236, R237). Only `construct` leaves it. -/
def State.raiseFault (s : State) (cause : Cause) (pcOfInstr addr : Word16) : State :=
  { s with run := .faulted, fault := ⟨cause, pcOfInstr, addr⟩ }

/-- A fault raised in execution: the fetch has advanced `pc`, so the instruction is at `pc - 2` (R231). -/
def State.raiseExec (s : State) (cause : Cause) (addr : Word16) : State := s.raiseFault cause (s.pc - 2) addr

/-- An instruction that accesses `len` bytes from `I`: its effect, or, when the range leaves memory, only the fault (R66, R105). -/
def State.guardRange (s : State) (cause : Cause) (len : Nat) (effect : State) : State :=
  match rangeFault s.i.toNat len with
  | some addr => s.raiseExec cause addr
  | none => effect

end Sys2Proof.Machine
end

