-- ==== Sys2Proof/Machine/Flags.lean ====
section
/-! DEFINITION. The flag computations (10_state.md R32, R33): VF as carry, not-borrow, shifted-out bit and collision. Each
gives the result and the flag; `writeWithFlag` writes them in the order of R33. -/

namespace Sys2Proof.Machine

/-- A flag as the value VF takes: 1 or 0 (R153). -/
def flagByte (f : Bool) : Byte := if f then 1 else 0

/-- `s <- a + b; (s mod 256, s > 255)` (R146). -/
def addWithCarry (a b : Byte) : Byte × Bool :=
  let s := a.toNat + b.toNat
  (BitVec.ofNat 8 s, decide (s > 255))

/-- `((a - b) mod 256, a >= b)`: the flag is not-borrow (R147, R149). -/
def subNotBorrow (a b : Byte) : Byte × Bool := (a - b, decide (b.toNat ≤ a.toNat))

/-- `(v >> 1, v[0])` (R150). -/
def shiftRightOut (v : Byte) : Byte × Bool := (v >>> 1, v.getLsbD 0)

/-- `((v << 1) mod 256, v[7])` (R151). -/
def shiftLeftOut (v : Byte) : Byte × Bool := (v <<< 1, v.getLsbD 7)

/-- The result to its destination first, the flag to VF last (R33). -/
def State.writeWithFlag (s : State) (x : RegIdx) (r : Byte × Bool) : State := (s.setV x r.1).setV VF (flagByte r.2)

/-- The result of a logic instruction; VF is written 0 after it only with `P_LOGIC_RESETS_VF` (R148). -/
def State.writeLogic (s : State) (x : RegIdx) (r : Byte) : State :=
  if s.params.logicResetsVf then (s.setV x r).setV VF 0 else s.setV x r

end Sys2Proof.Machine
end

