-- ==== Sys2Proof/Machine/Operands.lean ====
section
/-! DEFINITION. The operand forms: which register an instruction reads where a parameter chooses it, the addresses it forms
and the bytes it transfers. -/

namespace Sys2Proof.Machine

/-- The value a shift reads: `V[x]`, or `V[y]` with `P_SHIFT_USES_VY` (R154). -/
def State.shiftOperand (s : State) (x y : RegIdx) : Byte := if s.params.shiftUsesVy then s.getV y else s.getV x

/-- The offset `JP V0, nnn` adds: `V0`, or `V[x]` with `P_JUMP_OFFSET_USES_VX` (R124). -/
def State.jumpOffsetOperand (s : State) (x : RegIdx) : Byte := if s.params.jumpOffsetUsesVx then s.getV x else s.getV 0

/-- The target of `JP V0, nnn`: a sum of 16 bits that cannot wrap (R124). -/
def State.jumpOffsetTarget (s : State) (nnn : Addr12) (x : RegIdx) : Word16 := addr16 nnn + zext16 (s.jumpOffsetOperand x)

/-- `FONT_BASE + 5 * zext_16(v)`: the address of the glyph of digit `v`, the full value used (R215). -/
def digitAddress (v : Byte) : Word16 := BitVec.ofNat 16 (Config.fontBase + Config.glyphBytes * v.toNat)

/-- The hundreds, tens and ones of a value (R216). -/
def bcdDigits (v : Byte) : List Byte :=
  [BitVec.ofNat 8 (v.toNat / 100), BitVec.ofNat 8 (v.toNat / 10 % 10), BitVec.ofNat 8 (v.toNat % 10)]

/-- The number of registers `V0..Vx` a bulk transfer moves (R217, R219). -/
def transferCount (x : RegIdx) : Nat := x.val + 1

/-- The bytes `V0..Vx` (R217). -/
def State.transferBytes (s : State) (x : RegIdx) : List Byte := s.v.toList.take (transferCount x)

/-- The register file after `V[i] <- MemRead(I + i, 1)` for `i = 0..x`; the registers above `x` are unchanged (R219). -/
def State.transferredRegs (s : State) (x : RegIdx) : Vector Byte 16 :=
  Vector.ofFn fun j : Fin 16 => if j ≤ x then s.memByte (s.i.toNat + j.val) else s.getV j

/-- The bulk load of `V0..Vx` (R219). -/
def State.loadTransfer (s : State) (x : RegIdx) : State := { s with v := s.transferredRegs x }

/-- After a bulk transfer `I` is unchanged, or with `P_LDI_INCREMENTS_I` advanced by `x + 1` modulo 2^16 (R218). -/
def State.afterTransfer (s : State) (x : RegIdx) : State :=
  if s.params.ldiIncrementsI then s.setI (s.i + BitVec.ofNat 16 (transferCount x)) else s

end Sys2Proof.Machine
end

