-- ==== Sys2Proof/Machine/Alu.lean ====
section
/-! DEFINITION. Register loads, arithmetic, logic, shifts and random (42_alu.md). Arithmetic is unsigned modulo 2^8 (R152);
none raises an exception. -/

namespace Sys2Proof.Machine

/-- `LD Vx, kk` (R140). -/
def execSetImm (x : RegIdx) (kk : Byte) (s : State) : Host.Outcome State Fault Refusal := .next (s.setV x kk)

/-- `ADD Vx, kk` (R141): no flag. -/
def execAddImm (x : RegIdx) (kk : Byte) (s : State) : Host.Outcome State Fault Refusal := .next (s.setV x (s.getV x + kk))

/-- `LD Vx, Vy` (R142). -/
def execSetReg (x y : RegIdx) (s : State) : Host.Outcome State Fault Refusal := .next (s.setV x (s.getV y))

/-- `OR Vx, Vy` (R143, R148). -/
def execOrRegs (x y : RegIdx) (s : State) : Host.Outcome State Fault Refusal :=
  .next (s.writeLogic x (s.getV x ||| s.getV y))

/-- `AND Vx, Vy` (R144, R148). -/
def execAndRegs (x y : RegIdx) (s : State) : Host.Outcome State Fault Refusal :=
  .next (s.writeLogic x (s.getV x &&& s.getV y))

/-- `XOR Vx, Vy` (R145, R148). -/
def execXorRegs (x y : RegIdx) (s : State) : Host.Outcome State Fault Refusal :=
  .next (s.writeLogic x (s.getV x ^^^ s.getV y))

/-- `ADD Vx, Vy` (R146): VF is the carry. -/
def execAddRegs (x y : RegIdx) (s : State) : Host.Outcome State Fault Refusal :=
  .next (s.writeWithFlag x (addWithCarry (s.getV x) (s.getV y)))

/-- `SUB Vx, Vy` (R147): VF is not-borrow. -/
def execSubRegs (x y : RegIdx) (s : State) : Host.Outcome State Fault Refusal :=
  .next (s.writeWithFlag x (subNotBorrow (s.getV x) (s.getV y)))

/-- `SUBN Vx, Vy` (R149): the minuend is `V[y]`. -/
def execSubReversed (x y : RegIdx) (s : State) : Host.Outcome State Fault Refusal :=
  .next (s.writeWithFlag x (subNotBorrow (s.getV y) (s.getV x)))

/-- `SHR Vx {, Vy}` (R150, R154). -/
def execShiftRight (x y : RegIdx) (s : State) : Host.Outcome State Fault Refusal :=
  .next (s.writeWithFlag x (shiftRightOut (s.shiftOperand x y)))

/-- `SHL Vx {, Vy}` (R151, R154). -/
def execShiftLeft (x y : RegIdx) (s : State) : Host.Outcome State Fault Refusal :=
  .next (s.writeWithFlag x (shiftLeftOut (s.shiftOperand x y)))

/-- `RND Vx, kk` (R158): the byte is the `rnd` input of the tick, a free draw (R157; log entries 2, 15). -/
def execRandomAnd (x : RegIdx) (kk : Byte) (s : State) : Host.Outcome State Fault Refusal :=
  .next (s.setV x (s.env.inputs.rnd &&& kk))

end Sys2Proof.Machine
end

