-- ==== Sys2Proof/Machine/Control.lean ====
section
/-! DEFINITION. Control flow (41_control_flow.md). In every meaning `pc` is already the instruction's address plus 2 (R102,
R14). -/

namespace Sys2Proof.Machine

/-- `JP nnn` (R120). -/
def execJump (nnn : Addr12) (s : State) : Host.Outcome State Fault Refusal := .next (s.setPc (addr16 nnn))

/-- `CALL nnn` (R121): the return address is the advanced `pc`; at `sp = 15` the StackOverflow fault and nothing else. -/
def execCallSubroutine (nnn : Addr12) (s : State) : Host.Outcome State Fault Refusal :=
  .next (if s.sp = 15 then s.raiseExec .stackOverflow 0 else (s.push s.pc).setPc (addr16 nnn))

/-- `RET` (R122): at `sp = 0` the StackUnderflow fault and nothing else. -/
def execRet (s : State) : Host.Outcome State Fault Refusal :=
  .next (if s.sp = 0 then s.raiseExec .stackUnderflow 0 else s.popToPc)

/-- `JP V0, nnn` (R124). -/
def execJumpOffset (nnn : Addr12) (x : RegIdx) (s : State) : Host.Outcome State Fault Refusal :=
  .next (s.setPc (s.jumpOffsetTarget nnn x))

/-- `SE Vx, kk` (R125). -/
def execSkipIfEqImm (x : RegIdx) (kk : Byte) (s : State) : Host.Outcome State Fault Refusal :=
  .next (s.skipIf (decide (s.getV x = kk)))

/-- `SNE Vx, kk` (R126). -/
def execSkipIfNeImm (x : RegIdx) (kk : Byte) (s : State) : Host.Outcome State Fault Refusal :=
  .next (s.skipIf (decide (s.getV x ≠ kk)))

/-- `SE Vx, Vy` (R127). -/
def execSkipIfEqReg (x y : RegIdx) (s : State) : Host.Outcome State Fault Refusal :=
  .next (s.skipIf (decide (s.getV x = s.getV y)))

/-- `SNE Vx, Vy` (R128). -/
def execSkipIfNeReg (x y : RegIdx) (s : State) : Host.Outcome State Fault Refusal :=
  .next (s.skipIf (decide (s.getV x ≠ s.getV y)))

end Sys2Proof.Machine
end

