-- ==== Sys2Proof/Machine/Display.lean ====
section
/-! DEFINITION. The display (43_display.md): clear, the XOR sprite blit with collision and whole-row clipping, and the
rasterizer. -/

namespace Sys2Proof.Machine

/-- The sprite bit that falls on column `c` when byte `b` is drawn at column `x0`: bit 7 at `x0`, bit 0 at `x0 + 7`, none
elsewhere (R174). -/
def spriteBit (b : Byte) (x0 c : Nat) : Bool := decide (x0 ≤ c ∧ c < x0 + 8) && b.getLsbD (7 - (c - x0))

/-- `FB[..][x0+c] <- FB[..][x0+c] XOR b[7-c]` for the 8 cells of one row (R176). -/
def xorRow (row : Vector Bool 64) (x0 : Nat) (b : Byte) : Vector Bool 64 :=
  Vector.ofFn fun c : Fin 64 => row.get c ^^ spriteBit b x0 c.val

/-- Whether the sprite byte and the 8 cells it falls on have a bit in common: `(b AND old) != 0` (R177). -/
def rowCollides (row : Vector Bool 64) (x0 : Nat) (b : Byte) : Bool :=
  (List.range 8).any fun k => b.getLsbD (7 - k) && row[x0 + k]?.getD false

/-- `blit(x, y, sprite) → collision` (R181): the rows `sprite` from row `y` down at column `x0`; a row whose 8 cells do not all
lie inside the framebuffer is skipped entirely (R175). -/
def blit (x0 : Nat) : Nat → List Byte → Framebuffer → Framebuffer × Bool
  | _, [], fb => (fb, false)
  | y, b :: bs, fb =>
    if h : y < 32 ∧ x0 + 8 ≤ 64 then
      let rest := blit x0 (y + 1) bs (fb.set y (xorRow fb[y] x0 b))
      (rest.1, rowCollides fb[y] x0 b || rest.2)
    else blit x0 (y + 1) bs fb

/-- `CLS` (R170). -/
def execClearDisplay (s : State) : Host.Outcome State Fault Refusal := .next { s with fb := Framebuffer.blank }

/-- The blit of `DRW Vx, Vy, n`: coordinates `(V[x], V[y])`, sprite `mem[I] .. mem[I+n-1]` (R171, R172, R173). -/
def State.spriteBlit (s : State) (x y : RegIdx) (n : Fin 16) : Framebuffer × Bool :=
  blit (s.getV x).toNat (s.getV y).toNat (s.memBytes s.i.toNat n.val) s.fb

/-- `DRW Vx, Vy, n` (R171): the framebuffer after the blit, then VF, the collision (R178); when the sprite bytes run past
0xFFF the MemReadBounds fault and nothing else (R172). -/
def execDrawSprite (x y : RegIdx) (n : Fin 16) (s : State) : Host.Outcome State Fault Refusal :=
  .next (s.guardRange .memReadBounds n.val
    (State.setV { s with fb := (s.spriteBlit x y n).1 } VF (flagByte (s.spriteBlit x y n).2)))

/-- Lit is white, unlit black (R185). -/
def colourOf (lit : Bool) : Colour := if lit then .white else .black

/-- The calls on one row of cells, columns in order (R183), with the geometry of R184. -/
def renderRow (fb : Framebuffer) (pw ph r : Nat) : List RenderCall :=
  (List.range Config.fbWidth).map fun c => .fillRect (c * pw) (r * ph) pw ph (colourOf (fb.cell r c))

/-- The calls on the 2048 cells, rows in order (R183). -/
def renderCells (fb : Framebuffer) (pw ph : Nat) : List RenderCall :=
  (List.range Config.fbHeight).flatMap fun r => renderRow fb pw ph r

/-- The render sequence for a target of the given size (R183, R184, R186). -/
def renderCalls (fb : Framebuffer) (width height : Nat) : List RenderCall :=
  .clear :: renderCells fb (width / Config.fbWidth) (height / Config.fbHeight) ++ [.present]

/-- Render: an output only, no state of the block changes (R187). -/
def State.render (s : State) : State :=
  { s with env := { s.env with
      output := .render (renderCalls s.fb s.env.inputs.targetWidth s.env.inputs.targetHeight) } }

end Sys2Proof.Machine
end

