-- ==== Sys2Proof/Machine/Index.lean ====
section
/-! DEFINITION. The index register, the timers, digit sprites, BCD and the bulk transfers (45_index_timers_memory.md). -/

namespace Sys2Proof.Machine

/-- `LD I, nnn` (R210). -/
def execSetIndex (nnn : Addr12) (s : State) : Host.Outcome State Fault Refusal := .next (s.setI (addr16 nnn))

/-- `ADD I, Vx` (R214): modulo 2^16, VF unchanged. -/
def execAddIndex (x : RegIdx) (s : State) : Host.Outcome State Fault Refusal := .next (s.setI (s.i + zext16 (s.getV x)))

/-- `LD F, Vx` (R215). -/
def execSetIndexToDigit (x : RegIdx) (s : State) : Host.Outcome State Fault Refusal :=
  .next (s.setI (digitAddress (s.getV x)))

/-- `LD Vx, DT` (R211): the value before this tick's decay (R220). -/
def execGetDelay (x : RegIdx) (s : State) : Host.Outcome State Fault Refusal := .next (s.setV x s.dt)

/-- `LD DT, Vx` (R212). -/
def execSetDelay (x : RegIdx) (s : State) : Host.Outcome State Fault Refusal := .next { s with dt := s.getV x }

/-- `LD ST, Vx` (R213). -/
def execSetSound (x : RegIdx) (s : State) : Host.Outcome State Fault Refusal := .next { s with st := s.getV x }

/-- `LD B, Vx` (R216): three digits to `I`, `I + 1`, `I + 2`, or the MemWriteBounds fault and no byte. -/
def execStoreBcd (x : RegIdx) (s : State) : Host.Outcome State Fault Refusal :=
  .next (s.guardRange .memWriteBounds 3 (s.storeBytes s.i.toNat (bcdDigits (s.getV x))))

/-- `LD [I], Vx` (R217, R218): `V0..Vx` to `I .. I + x`, or the MemWriteBounds fault and no byte. -/
def execStoreRegs (x : RegIdx) (s : State) : Host.Outcome State Fault Refusal :=
  .next (s.guardRange .memWriteBounds (transferCount x)
    ((s.storeBytes s.i.toNat (s.transferBytes x)).afterTransfer x))

/-- `LD Vx, [I]` (R219, R218): `V0..Vx` from `I .. I + x`, or the MemReadBounds fault and no register. -/
def execLoadRegs (x : RegIdx) (s : State) : Host.Outcome State Fault Refusal :=
  .next (s.guardRange .memReadBounds (transferCount x) ((s.loadTransfer x).afterTransfer x))

end Sys2Proof.Machine
end

