-- ==== Sys2Proof/Machine/Keys.lean ====
section
/-! DEFINITION. Key input (44_keys.md): the key skips, the wait for a key and its completion. Keys are events in a queue, each
consumed at most once (R198). -/

namespace Sys2Proof.Machine

/-- `SKP Vx` (R193): the key is consumed whether or not it matches; an empty queue changes nothing (R195). -/
def execSkipIfKey (x : RegIdx) (s : State) : Host.Outcome State Fault Refusal :=
  match s.keyPop with
  | none => .next s
  | some (k, t) => .next (t.skipIf (decide (keyByte k = s.getV x)))

/-- `SKNP Vx` (R194): an empty queue gives no skip (R195). -/
def execSkipIfNotKey (x : RegIdx) (s : State) : Host.Outcome State Fault Refusal :=
  match s.keyPop with
  | none => .next s
  | some (k, t) => .next (t.skipIf (decide (keyByte k ≠ s.getV x)))

/-- `LD Vx, K` (R197): a queued key is stored at once; with none the core goes to `AwaitingKey(x)`. -/
def execLoadKey (x : RegIdx) (s : State) : Host.Outcome State Fault Refusal :=
  match s.keyPop with
  | none => .next { s with run := .awaitingKey x }
  | some (k, t) => .next (t.setV x (keyByte k))

/-- The instruction step of a tick in `AwaitingKey(x)`: with a key queued the wait completes (R107), with none nothing happens
(R106). No fetch either way. -/
def State.awaitKey (s : State) (x : RegIdx) : State :=
  match s.keyPop with
  | none => s
  | some (k, t) => { t.setV x (keyByte k) with run := .running }

end Sys2Proof.Machine
end

