-- ==== Sys2Proof/Machine/Dispatch.lean ====
section
/-! DEFINITION. The meaning of an instruction (40_execution_cycle.md R103): one arm for each constructor. -/

namespace Sys2Proof.Machine

/-- Execute an instruction, `pc` already advanced past it (R103). -/
def exec (i : Instr) (s : State) : Host.Outcome State Fault Refusal :=
  match i with
  | .clearDisplay => Sys2Proof.Machine.execClearDisplay s
  | .ret => Sys2Proof.Machine.execRet s
  | .jump nnn => Sys2Proof.Machine.execJump nnn s
  | .callSubroutine nnn => Sys2Proof.Machine.execCallSubroutine nnn s
  | .skipIfEqImm x kk => Sys2Proof.Machine.execSkipIfEqImm x kk s
  | .skipIfNeImm x kk => Sys2Proof.Machine.execSkipIfNeImm x kk s
  | .skipIfEqReg x y => Sys2Proof.Machine.execSkipIfEqReg x y s
  | .setImm x kk => Sys2Proof.Machine.execSetImm x kk s
  | .addImm x kk => Sys2Proof.Machine.execAddImm x kk s
  | .setReg x y => Sys2Proof.Machine.execSetReg x y s
  | .orRegs x y => Sys2Proof.Machine.execOrRegs x y s
  | .andRegs x y => Sys2Proof.Machine.execAndRegs x y s
  | .xorRegs x y => Sys2Proof.Machine.execXorRegs x y s
  | .addRegs x y => Sys2Proof.Machine.execAddRegs x y s
  | .subRegs x y => Sys2Proof.Machine.execSubRegs x y s
  | .shiftRight x y => Sys2Proof.Machine.execShiftRight x y s
  | .subReversed x y => Sys2Proof.Machine.execSubReversed x y s
  | .shiftLeft x y => Sys2Proof.Machine.execShiftLeft x y s
  | .skipIfNeReg x y => Sys2Proof.Machine.execSkipIfNeReg x y s
  | .setIndex nnn => Sys2Proof.Machine.execSetIndex nnn s
  | .jumpOffset nnn x => Sys2Proof.Machine.execJumpOffset nnn x s
  | .randomAnd x kk => Sys2Proof.Machine.execRandomAnd x kk s
  | .drawSprite x y n => Sys2Proof.Machine.execDrawSprite x y n s
  | .skipIfKey x => Sys2Proof.Machine.execSkipIfKey x s
  | .skipIfNotKey x => Sys2Proof.Machine.execSkipIfNotKey x s
  | .getDelay x => Sys2Proof.Machine.execGetDelay x s
  | .loadKey x => Sys2Proof.Machine.execLoadKey x s
  | .setDelay x => Sys2Proof.Machine.execSetDelay x s
  | .setSound x => Sys2Proof.Machine.execSetSound x s
  | .addIndex x => Sys2Proof.Machine.execAddIndex x s
  | .setIndexToDigit x => Sys2Proof.Machine.execSetIndexToDigit x s
  | .storeBcd x => Sys2Proof.Machine.execStoreBcd x s
  | .storeRegs x => Sys2Proof.Machine.execStoreRegs x s
  | .loadRegs x => Sys2Proof.Machine.execLoadRegs x s

end Sys2Proof.Machine
end

