-- ==== Sys2Proof/Machine/Transactions.lean ====
section
/-! DEFINITION. The host transactions other than `tick` (00_scope.md R7): `construct`, `load`, `push_key`, and a key symbol
before KEYMAP. Each may come between any two others, in any run state (R111, R234, R264). -/

namespace Sys2Proof.Machine

/-- What the latest transaction gave its environment. -/
def State.answer (s : State) (o : Output) : State := { s with env := { s.env with output := o } }

/-- Memory after `construct`: FONT at 0x000..0x04F, 0 elsewhere (R53, R261). -/
def fontMemory (p : Params) : Memory := Memory.writeList [] Config.fontBase p.font.toList

/-- `construct()`: every field of the block at its reset value (R53, R260); the parameters stay, and the environment's side is
not the block's. It issues no render. -/
def State.construct (s : State) : State :=
  { State.reset with mem := fontMemory s.params, params := s.params, env := { s.env with output := .silent } }

/-- `load(bytes)`: the bytes at 0x200, or, when they would exceed 4096, `LoadOverflow` and no change (R263, R264). -/
def State.load (s : State) (bytes : List Byte) : State :=
  if Config.progBase + bytes.length > Config.memSize then s.answer .loadOverflow
  else (s.storeBytes Config.progBase bytes).answer .loadOk

/-- `push_key(k)`: the new key becomes the most recent (R190). -/
def State.pushKey (s : State) (k : KeyIdx) : State := { s with keys := s.keys ++ [k] }.answer .silent

/-- A host key symbol: the `push_key` of the index KEYMAP gives it, a no-op when it gives none (R191). -/
def State.keySymbol (s : State) (c : Char) : State :=
  match s.params.keymap.lookup c with
  | some k => s.pushKey k
  | none => s.answer .silent

end Sys2Proof.Machine
end

