-- ==== Sys2Proof/Machine/Cycle.lean ====
section
/-! DEFINITION. The execution cycle (40_execution_cycle.md): fetch, decode, execute, render, timer decay, and the transaction a
step performs. -/

namespace Sys2Proof.Machine

/-- `if timer > 0 { timer <- timer - 1 }` (R245). -/
def decayTimer (t : Byte) : Byte := if t = 0 then 0 else t - 1

/-- Timer decay: both timers, when the tick's `timer_due` holds (R245). -/
def State.decay (s : State) : State :=
  { s with
    dt := if s.env.inputs.timerDue then decayTimer s.dt else s.dt
    st := if s.env.inputs.timerDue then decayTimer s.st else s.st }

/-- Steps 2 and 3 of a tick that did not fault: render, then decay (R100). -/
def State.finishTick (s : State) : State := s.render.decay

/-- The inputs of the tick that begins; nothing is issued yet (R8; log entry 15). -/
def State.beginTick (s : State) (inputs : TickInputs) : State :=
  { s with env := { s.env with inputs := inputs, output := .silent } }

/-- Whether the two bytes at `pc` lie in memory (R102). -/
def State.canFetch (s : State) : Bool := decide (s.pc.toNat + 1 < Config.memSize)

/-- `w <- mem[pc] ++ mem[pc+1]` (R68, R102). -/
def State.fetchWord (s : State) : Word16 := wordOfBytes (s.memByte s.pc.toNat) (s.memByte (s.pc.toNat + 1))

/-- `pc <- pc + 2` (R102). -/
def State.advance (s : State) : State := s.setPc (s.pc + 2)

/-- A fetch that leaves memory: `Fault(FetchBounds, max(pc, 0x1000))`, `pc` not advanced (R102). -/
def State.raiseFetch (s : State) : State :=
  s.raiseFault .fetchBounds s.pc (BitVec.ofNat 16 (max s.pc.toNat Config.memSize))

/-- The end of a tick whose instruction step left state `s`: a tick that faulted ends at once (R110). -/
def State.endTick (s : State) : State := if s.run = .faulted then s else s.finishTick

/-- Decode and execute, in the state the fetch left: a decode failure does nothing more (R103, R104). -/
def State.executeWord (s : State) (w : Word16) : Host.Outcome State Fault Refusal :=
  match decode s.params w with
  | .decodeFailure _ => .next s
  | .instr i => exec i s

/-- The instruction step of a tick in `Running`: fetch, advance, decode, execute (R102, R103). -/
def State.instructionStep (s : State) : Host.Outcome State Fault Refusal :=
  if s.canFetch then s.advance.executeWord s.fetchWord else .next s.raiseFetch

/-- The rest of a tick after its instruction step (R100, R110). -/
def afterInstruction : Host.Outcome State Fault Refusal → Host.Outcome State Fault Refusal
  | .next t => .next t.endTick
  | .fault f => .fault f
  | .refused r => .refused r

/-- `tick(timer_due, rnd, target_size)` (R100). In `Faulted` it does nothing (R101). -/
def State.tick (s : State) (inputs : TickInputs) : Host.Outcome State Fault Refusal :=
  let s := s.beginTick inputs
  match s.run with
  | .faulted => .next s
  | .awaitingKey x => .next (s.awaitKey x).finishTick
  | .running => afterInstruction s.instructionStep

/-- One transaction of the host (R6, R7). -/
def State.transact (s : State) : HostAction → Host.Outcome State Fault Refusal
  | .construct => .next s.construct
  | .load bytes => .next (s.load bytes)
  | .pushKey k => .next (s.pushKey k)
  | .keySymbol c => .next (s.keySymbol c)
  | .tick inputs => s.tick inputs

/-- The next transaction and the state in which it is performed: the first of the script, or, when the script is empty, a tick
with inputs nobody chose (log entries 1, 2). -/
def State.nextAction (s : State) : HostAction × State :=
  match s.env.host with
  | [] => (.tick (Config.freeInputs s.env.draws), { s with env := { s.env with draws := s.env.draws + 1 } })
  | a :: rest => (a, { s with env := { s.env with host := rest } })

/-- Whether a transaction is a tick. -/
def HostAction.isTick : HostAction → Bool
  | .tick _ => true
  | .construct => false
  | .load _ => false
  | .pushKey _ => false
  | .keySymbol _ => false

/-- A `pc` from which the next tick can fetch: `pc` itself, or 0x200 when it cannot. -/
def State.fetchablePc (s : State) : Word16 := if s.canFetch then s.pc else BitVec.ofNat 16 Config.progBase

/-- The state whose very next step runs the instruction of the bytes `bytes`: they stand where `pc` fetches, the core is
`Running`, and the script's next transaction is a tick (log entry 10). -/
def State.placeInstruction (s : State) (bytes : List Byte) : State :=
  { s with
    mem := s.mem.writeList s.fetchablePc.toNat bytes
    pc := s.fetchablePc
    run := .running
    env := { s.env with host := s.env.host.dropWhile fun a => !a.isTick } }

end Sys2Proof.Machine
end

