-- ==== Sys2Proof/Machine/Step.lean ====
section
/-! DEFINITION. One step of the machine: one transaction of the host (00_scope.md R6). -/

namespace Sys2Proof.Machine

/-- Perform the next transaction: the script's first, or a tick with free inputs when the script is empty. -/
def step (s : State) : Host.Outcome State Fault Refusal := s.nextAction.2.transact s.nextAction.1

/-- `s` with the instruction word `w` (bit 0 its least significant bit) where the next step fetches. -/
def State.withFetchWord (s : State) (nbits w : Nat) : State := s.placeInstruction (bytesOfTableWord nbits w)

end Sys2Proof.Machine
end

