-- ==== Sys2Proof/Safety.lean ====
section
/-! DEFINITION. What the claims are stated in: what a transaction leaves unchanged (Frame), a fault of the block
(FaultsWith), and the invariant of the machine (StateInv). -/

namespace Sys2Proof.Machine

/-- What an instruction may change: nothing by default. -/
structure Touched where
  /-- General registers. -/
  v : List RegIdx := []
  /-- Call-stack entries. -/
  stack : List (Fin 16) := []
  /-- The first of the bytes of memory stored to. -/
  memBase : Nat := 0
  /-- How many bytes of memory are stored to. -/
  memLen : Nat := 0
  /-- `I`. -/
  i : Bool := false
  /-- `pc`. -/
  pc : Bool := false
  /-- `sp`. -/
  sp : Bool := false
  /-- `DT`. -/
  dt : Bool := false
  /-- `ST`. -/
  st : Bool := false
  /-- The framebuffer. -/
  fb : Bool := false
  /-- The key queue. -/
  keys : Bool := false
  /-- The run state. -/
  run : Bool := false
  /-- The fault record. -/
  fault : Bool := false
  /-- The environment's side. -/
  env : Bool := false

/-- Everything but what `m` names is in `t` as it was in `s`: every general register, every call-stack entry, every byte of
memory, every other register, and always the parameters. -/
structure Frame (m : Touched) (s t : State) : Prop where
  /-- General registers. -/
  v : ∀ j, j ∉ m.v → t.getV j = s.getV j
  /-- Call-stack entries. -/
  stack : ∀ j, j ∉ m.stack → t.getS j = s.getS j
  /-- Bytes of memory. -/
  mem : ∀ a, ¬(m.memBase ≤ a ∧ a < m.memBase + m.memLen) → t.memByte a = s.memByte a
  /-- `I`. -/
  i : m.i = false → t.i = s.i
  /-- `pc`. -/
  pc : m.pc = false → t.pc = s.pc
  /-- `sp`. -/
  sp : m.sp = false → t.sp = s.sp
  /-- `DT`. -/
  dt : m.dt = false → t.dt = s.dt
  /-- `ST`. -/
  st : m.st = false → t.st = s.st
  /-- The framebuffer. -/
  fb : m.fb = false → t.fb = s.fb
  /-- The key queue. -/
  keys : m.keys = false → t.keys = s.keys
  /-- The run state. -/
  run : m.run = false → t.run = s.run
  /-- The fault record. -/
  fault : m.fault = false → t.fault = s.fault
  /-- The environment's side. -/
  env : m.env = false → t.env = s.env
  /-- The parameters. -/
  params : t.params = s.params

/-- The instruction whose fetch brought the core to `s` raised this fault and made no write: the record holds the cause, the
instruction's address `pc - 2` and the offending address, the core is `Faulted`, and nothing else changed (R231, R105). -/
def FaultsWith (cause : Cause) (addr : Nat) (s t : State) : Prop :=
  t.run = .faulted ∧ t.fault = ⟨cause, s.pc - 2, BitVec.ofNat 16 addr⟩ ∧ Frame { run := true, fault := true } s t

/-- The record of a cause: 0 for the stack faults, an address outside memory for the bounds faults (R49, R232). -/
def FaultRecord.consistent (f : FaultRecord) : Prop :=
  match f.cause with
  | .none => f = FaultRecord.zero
  | .stackOverflow => f.faultAddr = 0
  | .stackUnderflow => f.faultAddr = 0
  | .fetchBounds => Config.memSize ≤ f.faultAddr.toNat
  | .memReadBounds => Config.memSize ≤ f.faultAddr.toNat
  | .memWriteBounds => Config.memSize ≤ f.faultAddr.toNat

/-- The invariant of the machine. -/
structure StateInv (s : State) : Prop where
  /-- Memory is in its canonical form and inside the address space (R60; log entry 4). -/
  memory : s.mem.wf
  /-- `pc` is at most 0x10FE and so never wraps (R37). -/
  pc : s.pc.toNat ≤ 0x10FE
  /-- Return addresses are values `pc` held after a fetch (R37). -/
  returns : ∀ j, (s.getS j).toNat ≤ 0x1000
  /-- `S[0]` is never written (R40). -/
  slotZero : s.getS 0 = 0
  /-- The core is `Faulted` exactly when the record holds a cause (R49, R231, R234). -/
  faulted : s.run = .faulted ↔ s.fault.cause ≠ .none
  /-- The record says what its cause says (R49, R232). -/
  record : s.fault.consistent

end Sys2Proof.Machine
end

