-- ==== Sys2Proof/WellFormed.lean ====
section
/-! DEFINITION. Which terms of the instruction type a word can stand for. The operand types already keep every operand in
the range of its field (30_encoding.md R82), so one check is left: the two operands of `JP V0, nnn` share bits. -/

namespace Sys2Proof

/-- The register index `w[11:8]` that the top nibble of `nnn = w[11:0]` names (R82). -/
def topNibble (nnn : Addr12) : RegIdx := (nnn.extractLsb' 8 4).toFin

/-- Well-formed: some word decodes to it. `JP V0, nnn` carries `x` beside `nnn` (R93), and both are read from the same word,
so `x` is the top nibble of `nnn` (log entry 12). Every other term is well formed. -/
def Instr.wf : Instr → Bool
  | .clearDisplay => true
  | .ret => true
  | .jump _ => true
  | .callSubroutine _ => true
  | .skipIfEqImm _ _ => true
  | .skipIfNeImm _ _ => true
  | .skipIfEqReg _ _ => true
  | .setImm _ _ => true
  | .addImm _ _ => true
  | .setReg _ _ => true
  | .orRegs _ _ => true
  | .andRegs _ _ => true
  | .xorRegs _ _ => true
  | .addRegs _ _ => true
  | .subRegs _ _ => true
  | .shiftRight _ _ => true
  | .subReversed _ _ => true
  | .shiftLeft _ _ => true
  | .skipIfNeReg _ _ => true
  | .setIndex _ => true
  | .jumpOffset nnn x => decide (x = topNibble nnn)
  | .randomAnd _ _ => true
  | .drawSprite _ _ _ => true
  | .skipIfKey _ => true
  | .skipIfNotKey _ => true
  | .getDelay _ => true
  | .loadKey _ => true
  | .setDelay _ => true
  | .setSound _ => true
  | .addIndex _ => true
  | .setIndexToDigit _ => true
  | .storeBcd _ => true
  | .storeRegs _ => true
  | .loadRegs _ => true

end Sys2Proof
end

