-- ==== Sys2Proof/Certificates/Slice0/Obligations.lean ====
section
/-! DEFINITION. The statements for the provers, from the numbered rules of spec/. In every statement about `exec`, the state is
the one the fetch left, `pc` already the instruction's address plus 2 (R14, R102). -/

open Sys2Proof Sys2Proof.Machine

/-! ## Words as the spec lays them out, in plain numbers (R81) -/

/-- Format NNN: class, 12-bit address. -/
def Sys2Proof.wordNnn (c : Nat) (nnn : Addr12) : Word16 := BitVec.ofNat 16 (c * 4096 + nnn.toNat)

/-- Formats XKK and XS: class, x, 8 low bits. -/
def Sys2Proof.wordXkk (c : Nat) (x : RegIdx) (kk : Byte) : Word16 := BitVec.ofNat 16 (c * 4096 + x.val * 256 + kk.toNat)

/-- Formats XYS and XYN: class, x, y, low nibble. -/
def Sys2Proof.wordXyn (c : Nat) (x y : RegIdx) (n : Fin 16) : Word16 :=
  BitVec.ofNat 16 (c * 4096 + x.val * 256 + y.val * 16 + n.val)

/-! ## Reset, program load, keys from the host -/

/-- R53: every field after reset, with the default FONT of R261. -/
def Obligations.ResetHoldsTheTableOfValues : Prop :=
  (∀ k : Fin 80, State.reset.memByte k.val = Config.defaultFont.get k) ∧
  (∀ a, 0x50 ≤ a → a < 4096 → State.reset.memByte a = 0) ∧
  (∀ x, State.reset.getV x = 0) ∧ State.reset.i = 0 ∧ State.reset.pc = 0x200 ∧
  (∀ j, State.reset.getS j = 0) ∧ State.reset.sp = 0 ∧ State.reset.dt = 0 ∧ State.reset.st = 0 ∧
  (∀ r c : Nat, State.reset.fb.cell r c = false) ∧ State.reset.keys = [] ∧ State.reset.run = .running ∧
  State.reset.fault.cause.code = 0 ∧ State.reset.fault.faultPc = 0 ∧ State.reset.fault.faultAddr = 0

/-- R260: `construct` from any state, in any run state and with any FONT, and it alone leaves `Faulted`; it renders nothing. -/
def Obligations.ConstructResetsAnyStateAndAloneLeavesFaulted : Prop :=
  (∀ (s : State) (rest : List HostAction), s.env.host = .construct :: rest →
    ∃ t, step s = .next t ∧
      (∀ k : Fin 80, t.memByte k.val = s.params.font.get k) ∧ (∀ a, 0x50 ≤ a → a < 4096 → t.memByte a = 0) ∧
      (∀ x, t.getV x = 0) ∧ t.i = 0 ∧ t.pc = 0x200 ∧ (∀ j, t.getS j = 0) ∧ t.sp = 0 ∧ t.dt = 0 ∧ t.st = 0 ∧
      (∀ r c : Nat, t.fb.cell r c = false) ∧ t.keys = [] ∧ t.run = .running ∧ t.fault = ⟨.none, 0, 0⟩ ∧
      t.params = s.params ∧ t.env.host = rest ∧ t.env.output = .silent) ∧
  (∀ s t : State, s.run = .faulted → step s = .next t → t.run ≠ .faulted → ∃ rest, s.env.host = .construct :: rest)

/-- R263, R264: `load` copies the image or changes nothing, and touches nothing but the bytes it copies. -/
def Obligations.LoadCopiesTheImageOrChangesNothing : Prop :=
  ∀ (s : State) (bytes : List Byte) (rest : List HostAction), s.env.host = .load bytes :: rest →
    (0x200 + bytes.length > 4096 →
      ∃ t, step s = .next t ∧ t.env.output = .loadOverflow ∧ Frame { env := true } s t) ∧
    (0x200 + bytes.length ≤ 4096 →
      ∃ t, step s = .next t ∧ t.env.output = .loadOk ∧
        (∀ k (h : k < bytes.length), t.memByte (0x200 + k) = bytes[k]) ∧
        Frame { memBase := 0x200, memLen := bytes.length, env := true } s t)

/-- R265: reading back a loaded image returns exactly the image. -/
def Obligations.LoadThenReadReturnsTheImage : Prop :=
  ∀ (s t : State) (bytes : List Byte) (rest : List HostAction), s.env.host = .load bytes :: rest →
    bytes.length ≤ 3584 → step s = .next t → t.memBytes 0x200 bytes.length = bytes

/-- R190: `push_key` makes its key the most recent, in every run state, and changes nothing else; a key symbol does the same
when KEYMAP maps it and nothing when it does not. -/
def Obligations.PushKeyAppendsInEveryRunState : Prop :=
  (∀ (s : State) (k : KeyIdx) (rest : List HostAction), s.env.host = .pushKey k :: rest →
    ∃ t, step s = .next t ∧ t.keys = s.keys ++ [k] ∧ Frame { keys := true, env := true } s t) ∧
  (∀ (s : State) (c : Char) (rest : List HostAction), s.env.host = .keySymbol c :: rest →
    (∀ k, s.params.keymap.lookup c = some k →
      ∃ t, step s = .next t ∧ t.keys = s.keys ++ [k] ∧ Frame { keys := true, env := true } s t) ∧
    (s.params.keymap.lookup c = none → ∃ t, step s = .next t ∧ Frame { env := true } s t))

/-! ## The execution cycle -/

/-- R102, R103: a tick in `Running` fetches the big-endian word at `pc` and advances `pc`; the word's instruction runs in that
state; a fetch that leaves memory faults and advances nothing. What the step adds around `exec`: the inputs of the tick
before it, the render and the timer decay after it, unless it faulted. -/
def Obligations.TickFetchesAdvancesAndExecutes : Prop :=
  ∀ (s : State) (inp : TickInputs), s.nextAction.1 = .tick inp → s.run = .running →
    (s.pc.toNat + 1 ≥ 4096 →
      ∃ t, step s = .next t ∧ t.run = .faulted ∧ t.fault = ⟨.fetchBounds, s.pc, BitVec.ofNat 16 (max s.pc.toNat 0x1000)⟩ ∧
        t.env.output = .silent ∧ Frame { run := true, fault := true, env := true } s t) ∧
    (s.pc.toNat + 1 < 4096 →
      ∀ w : Word16, w = s.memByte s.pc.toNat ++ s.memByte (s.pc.toNat + 1) →
        (∀ i, decode s.params w = .instr i →
          step s =
            match exec i ((s.nextAction.2.beginTick inp).setPc (s.pc + 2)) with
            | .next t => .next (if t.run = .faulted then t else t.render.decay)
            | .fault f => .fault f
            | .refused r => .refused r) ∧
        (decode s.params w = .decodeFailure w →
          step s = .next ((s.nextAction.2.beginTick inp).setPc (s.pc + 2)).render.decay))

/-- R104: a decode failure changes nothing but the advanced `pc` and the timers' decay, and the tick renders. -/
def Obligations.DecodeFailureIsANoOp : Prop :=
  ∀ (s : State) (inp : TickInputs) (w : Word16), s.nextAction.1 = .tick inp → s.run = .running →
    s.pc.toNat + 1 < 4096 → decode s.params (s.memByte s.pc.toNat ++ s.memByte (s.pc.toNat + 1)) = .decodeFailure w →
    ∃ t, step s = .next t ∧ t.pc = s.pc + 2 ∧
      t.dt.toNat = (if inp.timerDue then s.dt.toNat - 1 else s.dt.toNat) ∧
      t.st.toNat = (if inp.timerDue then s.st.toNat - 1 else s.st.toNat) ∧
      t.env.output = .render (renderCalls s.fb inp.targetWidth inp.targetHeight) ∧
      Frame { pc := true, dt := true, st := true, env := true } s t

/-- R101: a tick in `Faulted` changes no state of the block and renders nothing. -/
def Obligations.TickInFaultedDoesNothing : Prop :=
  ∀ (s : State) (inp : TickInputs), s.nextAction.1 = .tick inp → s.run = .faulted →
    ∃ t, step s = .next t ∧ t = { s with env := t.env } ∧ t.env.output = .silent

/-- R234: `Faulted` is terminal. Every transaction but `construct` leaves the core `Faulted` with the first fault's record: a
tick does nothing, `push_key` and `load` act on the queue and on memory; `construct` resets every field. -/
def Obligations.FaultedKeepsTheFirstFaultUntilConstruct : Prop :=
  ∀ s t : State, s.run = .faulted → step s = .next t →
    (s.env.host.head? ≠ some .construct → t.run = .faulted ∧ t.fault = s.fault) ∧
    (∀ inp, s.nextAction.1 = .tick inp → t = { s with env := t.env }) ∧
    (∀ k, s.env.host.head? = some (.pushKey k) → t = { s with keys := s.keys ++ [k], env := t.env }) ∧
    (∀ bytes, s.env.host.head? = some (.load bytes) →
      t = { s with mem := t.mem, env := t.env } ∧ (bytes.length ≤ 3584 → t.memBytes 0x200 bytes.length = bytes)) ∧
    (s.env.host.head? = some .construct →
      t = { State.reset with mem := t.mem, params := s.params, env := t.env } ∧
      (∀ k : Fin 80, t.memByte k.val = s.params.font.get k) ∧ ∀ a, 0x50 ≤ a → a < 4096 → t.memByte a = 0)

/-- R106: waiting with no key queued, a tick fetches and executes nothing, and renders and decays as usual. -/
def Obligations.WaitingTickWithNoKeyOnlyRendersAndDecays : Prop :=
  ∀ (s : State) (inp : TickInputs) (x : RegIdx), s.nextAction.1 = .tick inp → s.run = .awaitingKey x → s.keys = [] →
    ∃ t, step s = .next t ∧ t.run = .awaitingKey x ∧
      t.dt.toNat = (if inp.timerDue then s.dt.toNat - 1 else s.dt.toNat) ∧
      t.st.toNat = (if inp.timerDue then s.st.toNat - 1 else s.st.toNat) ∧
      t.env.output = .render (renderCalls s.fb inp.targetWidth inp.targetHeight) ∧
      Frame { dt := true, st := true, env := true } s t

/-- R107: waiting with a key queued, a tick stores the most recent key and goes on, without a fetch. -/
def Obligations.WaitingTickWithAKeyCompletesTheWait : Prop :=
  ∀ (s : State) (inp : TickInputs) (x : RegIdx) (ks : List KeyIdx) (k : KeyIdx),
    s.nextAction.1 = .tick inp → s.run = .awaitingKey x → s.keys = ks ++ [k] →
    ∃ t, step s = .next t ∧ (t.getV x).toNat = k.val ∧ t.keys = ks ∧ t.run = .running ∧
      t.dt.toNat = (if inp.timerDue then s.dt.toNat - 1 else s.dt.toNat) ∧
      t.st.toNat = (if inp.timerDue then s.st.toNat - 1 else s.st.toNat) ∧
      t.env.output = .render (renderCalls s.fb inp.targetWidth inp.targetHeight) ∧
      Frame { v := [x], keys := true, run := true, dt := true, st := true, env := true } s t

/-- What the instruction step of a tick leaves, before the render and the decay: the completed or continued wait, or the state
the fetched word's execution leaves. -/
def Sys2Proof.Machine.AfterInstructionStep (s : State) (inp : TickInputs) (u : State) : Prop :=
  match s.run with
  | .faulted => False
  | .awaitingKey x => u = (s.nextAction.2.beginTick inp).awaitKey x
  | .running => (s.nextAction.2.beginTick inp).instructionStep = .next u

/-- R245: in every tick that does not fault, `timer_due` decrements both timers, each with floor 0; without it they keep what
the instruction step left. -/
def Obligations.NonFaultingTickDecaysBothTimersOnce : Prop :=
  ∀ (s u t : State) (inp : TickInputs), s.nextAction.1 = .tick inp → AfterInstructionStep s inp u →
    step s = .next t → t.run ≠ .faulted →
    t.dt.toNat = (if inp.timerDue then u.dt.toNat - 1 else u.dt.toNat) ∧
    t.st.toNat = (if inp.timerDue then u.st.toNat - 1 else u.st.toNat) ∧
    Frame { dt := true, st := true, env := true } u t

/-- R183, R184, R185: every tick that does not fault issues `clear`, one `fill_rect` for each of the 2048 cells in row-major
order with the geometry and colour of the framebuffer it leaves, and `present`; for every target size, zero included. -/
def Obligations.NonFaultingTickRendersEveryCell : Prop :=
  ∀ (s t : State) (inp : TickInputs), s.nextAction.1 = .tick inp → s.run ≠ .faulted → step s = .next t →
    t.run ≠ .faulted →
    ∃ calls : List RenderCall, t.env.output = .render calls ∧ calls.length = 2050 ∧
      calls[0]? = some .clear ∧ calls[2049]? = some .present ∧
      ∀ r c : Nat, r < 32 → c < 64 →
        calls[1 + r * 64 + c]? =
          some (.fillRect (c * (inp.targetWidth / 64)) (r * (inp.targetHeight / 32)) (inp.targetWidth / 64)
            (inp.targetHeight / 32) (if t.fb.cell r c then .white else .black))

/-- R110: a tick that faults, in its fetch or in its instruction, neither renders nor decays. -/
def Obligations.FaultingTickNeitherRendersNorDecays : Prop :=
  ∀ (s t : State) (inp : TickInputs), s.nextAction.1 = .tick inp → s.run ≠ .faulted → step s = .next t →
    t.run = .faulted → t.env.output = .silent ∧ t.dt = s.dt ∧ t.st = s.st

/-- R231, R236: faults are precise. After a tick that faults, the state is the one before it but for the run state, the record
and, for an execution fault, `pc` advanced by 2; the record holds the faulting instruction's address. -/
def Obligations.FaultsArePrecise : Prop :=
  ∀ (s t : State) (inp : TickInputs), s.nextAction.1 = .tick inp → s.run ≠ .faulted → step s = .next t →
    t.run = .faulted →
    t.fault.faultPc = s.pc ∧ t = { s with run := .faulted, fault := t.fault, pc := t.pc, env := t.env } ∧
    t.pc = (if t.fault.cause = .fetchBounds then s.pc else s.pc + 2)

/-- The execution faults of R232: cause, and `fault_addr`, of an instruction in the state the fetch left. -/
def Sys2Proof.Machine.faultOf (s : State) : Instr → Option (Cause × Nat)
  | .callSubroutine _ => if s.sp.val = 15 then some (.stackOverflow, 0) else none
  | .ret => if s.sp.val = 0 then some (.stackUnderflow, 0) else none
  | .drawSprite _ _ n =>
    if 0 < n.val ∧ s.i.toNat + (n.val - 1) ≥ 0x1000 then some (.memReadBounds, max s.i.toNat 0x1000) else none
  | .loadRegs x => if s.i.toNat + x.val ≥ 0x1000 then some (.memReadBounds, max s.i.toNat 0x1000) else none
  | .storeBcd _ => if s.i.toNat + 2 ≥ 0x1000 then some (.memWriteBounds, max s.i.toNat 0x1000) else none
  | .storeRegs x => if s.i.toNat + x.val ≥ 0x1000 then some (.memWriteBounds, max s.i.toNat 0x1000) else none
  | _ => none

/-- R232: the execution faults, their codes, conditions and addresses; no other instruction raises a fault, and every
instruction ends in a next state. A tick in `Running` raises the fetch fault exactly when `pc` is at or above 0x0FFF. -/
def Obligations.InstructionsFaultExactlyAsTheTableSays : Prop :=
  (Cause.code .none = 0 ∧ Cause.code .stackOverflow = 1 ∧ Cause.code .stackUnderflow = 2 ∧ Cause.code .fetchBounds = 3 ∧
    Cause.code .memReadBounds = 4 ∧ Cause.code .memWriteBounds = 5) ∧
  (∀ (i : Instr) (s : State), s.run = .running →
    ∃ t, exec i s = .next t ∧
      match faultOf s i with
      | some (cause, addr) => FaultsWith cause addr s t
      | none => t.run ≠ .faulted ∧ t.fault = s.fault) ∧
  (∀ (s : State) (inp : TickInputs), s.nextAction.1 = .tick inp → s.run = .running →
    ∃ t, step s = .next t ∧
      (t.run = .faulted ∧ t.fault.cause = .fetchBounds ↔ s.pc.toNat ≥ 0x0FFF) ∧
      (s.pc.toNat ≥ 0x0FFF → t.fault.faultPc = s.pc ∧ t.fault.faultAddr.toNat = max s.pc.toNat 0x1000))

/-! ## Which instructions write what -/

/-- The general registers an instruction writes as its ordinary destination (R31). -/
def Sys2Proof.Machine.writesAsDestination (j : RegIdx) : Instr → Bool
  | .setImm x _ => x = j
  | .addImm x _ => x = j
  | .setReg x _ => x = j
  | .orRegs x _ => x = j
  | .andRegs x _ => x = j
  | .xorRegs x _ => x = j
  | .addRegs x _ => x = j
  | .subRegs x _ => x = j
  | .shiftRight x _ => x = j
  | .subReversed x _ => x = j
  | .shiftLeft x _ => x = j
  | .randomAnd x _ => x = j
  | .getDelay x => x = j
  | .loadKey x => x = j
  | .loadRegs x => j ≤ x
  | _ => false

/-- The instructions that write VF as a flag (R32), and those that reset it with `P_LOGIC_RESETS_VF` (R148). -/
def Sys2Proof.Machine.writesFlag (p : Params) : Instr → Bool
  | .addRegs _ _ => true
  | .subRegs _ _ => true
  | .subReversed _ _ => true
  | .shiftRight _ _ => true
  | .shiftLeft _ _ => true
  | .drawSprite _ _ _ => true
  | .orRegs _ _ => p.logicResetsVf
  | .andRegs _ _ => p.logicResetsVf
  | .xorRegs _ _ => p.logicResetsVf
  | _ => false

/-- R32: an instruction changes a general register only as its destination or, for VF, as the flag it writes. -/
def Obligations.GeneralRegistersChangeOnlyByTheirWriters : Prop :=
  ∀ (i : Instr) (s t : State) (j : RegIdx), exec i s = .next t → t.getV j ≠ s.getV j →
    writesAsDestination j i = true ∨ (j = 0xF ∧ writesFlag s.params i = true)

/-- R34, R39, R41, R42: the only writers of `I`, of `sp` and the call stack, of `DT` and of `ST` among the instructions. -/
def Obligations.ControlRegistersChangeOnlyByTheirWriters : Prop :=
  ∀ (i : Instr) (s t : State), exec i s = .next t →
    (t.i ≠ s.i → match i with
      | .setIndex _ => True
      | .addIndex _ => True
      | .setIndexToDigit _ => True
      | .storeRegs _ => s.params.ldiIncrementsI = true
      | .loadRegs _ => s.params.ldiIncrementsI = true
      | _ => False) ∧
    (t.sp ≠ s.sp → match i with
      | .callSubroutine _ => t.sp.val = s.sp.val + 1
      | .ret => t.sp.val + 1 = s.sp.val
      | _ => False) ∧
    ((∃ j, t.getS j ≠ s.getS j) → ∃ nnn, i = .callSubroutine nnn) ∧
    (t.dt ≠ s.dt → ∃ x, i = .setDelay x) ∧
    (t.st ≠ s.st → ∃ x, i = .setSound x)

/-- R44, R45, R48, R71: the only writers of the framebuffer, the key queue, the run state and memory among the instructions. -/
def Obligations.DevicesAndMemoryChangeOnlyByTheirWriters : Prop :=
  ∀ (i : Instr) (s t : State), exec i s = .next t →
    (t.fb ≠ s.fb → i = .clearDisplay ∨ ∃ x y n, i = .drawSprite x y n) ∧
    (t.keys ≠ s.keys →
      (∃ k, s.keys = t.keys ++ [k]) ∧ ∃ x, i = .skipIfKey x ∨ i = .skipIfNotKey x ∨ i = .loadKey x) ∧
    (t.run ≠ s.run → (∃ x, i = .loadKey x ∧ t.run = .awaitingKey x ∧ s.keys = []) ∨ t.run = .faulted) ∧
    (∀ a, t.memByte a ≠ s.memByte a → match i with
      | .storeBcd _ => s.i.toNat ≤ a ∧ a ≤ s.i.toNat + 2
      | .storeRegs x => s.i.toNat ≤ a ∧ a ≤ s.i.toNat + x.val
      | _ => False)

/-- R36, which the spec marks as derived: how an instruction may change `pc`; an instruction that faults does not. -/
def Obligations.PcChangesOnlyByTransfersAndSkips : Prop :=
  (∀ (i : Instr) (s t : State), exec i s = .next t → s.run = .running → t.run = .faulted → t.pc = s.pc) ∧
  ∀ (i : Instr) (s t : State), exec i s = .next t → t.pc ≠ s.pc →
    match i with
    | .jump nnn => t.pc.toNat = nnn.toNat
    | .callSubroutine nnn => t.pc.toNat = nnn.toNat
    | .jumpOffset nnn x =>
      t.pc.toNat = nnn.toNat + (if s.params.jumpOffsetUsesVx then s.getV x else s.getV 0).toNat
    | .ret => t.pc = s.getS s.sp
    | .skipIfEqImm _ _ => t.pc = s.pc + 2
    | .skipIfNeImm _ _ => t.pc = s.pc + 2
    | .skipIfEqReg _ _ => t.pc = s.pc + 2
    | .skipIfNeReg _ _ => t.pc = s.pc + 2
    | .skipIfKey _ => t.pc = s.pc + 2
    | .skipIfNotKey _ => t.pc = s.pc + 2
    | _ => False

/-! ## Control flow -/

/-- R120. -/
def Obligations.JumpSetsPc : Prop :=
  ∀ (p : Params) (s : State) (nnn : Addr12),
    decode p (wordNnn 0x1 nnn) = .instr (.jump nnn) ∧
    ∃ t, exec (.jump nnn) s = .next t ∧ t.pc.toNat = nnn.toNat ∧ Frame { pc := true } s t

/-- R121: the call below depth 15 and the StackOverflow fault at 15. -/
def Obligations.CallPushesTheReturnAddressOrFaults : Prop :=
  ∀ (p : Params) (s : State) (nnn : Addr12),
    decode p (wordNnn 0x2 nnn) = .instr (.callSubroutine nnn) ∧
    (s.sp.val < 15 →
      ∃ t, exec (.callSubroutine nnn) s = .next t ∧ t.sp.val = s.sp.val + 1 ∧ t.getS t.sp = s.pc ∧
        t.pc.toNat = nnn.toNat ∧ Frame { stack := [t.sp], sp := true, pc := true } s t) ∧
    (s.sp.val = 15 → ∃ t, exec (.callSubroutine nnn) s = .next t ∧ FaultsWith .stackOverflow 0 s t)

/-- R122: the return above depth 0, which keeps the entry, and the StackUnderflow fault at 0. -/
def Obligations.ReturnPopsTheReturnAddressOrFaults : Prop :=
  ∀ (p : Params) (s : State),
    decode p 0x00EE = .instr .ret ∧
    (0 < s.sp.val →
      ∃ t, exec .ret s = .next t ∧ t.pc = s.getS s.sp ∧ t.sp.val + 1 = s.sp.val ∧ Frame { sp := true, pc := true } s t) ∧
    (s.sp.val = 0 → ∃ t, exec .ret s = .next t ∧ FaultsWith .stackUnderflow 0 s t)

/-- R124, with both settings of `P_JUMP_OFFSET_USES_VX`. -/
def Obligations.JumpOffsetAddsTheRegister : Prop :=
  ∀ (p : Params) (s : State) (nnn : Addr12) (x : RegIdx),
    decode p (wordNnn 0xB nnn) = .instr (.jumpOffset nnn (topNibble nnn)) ∧ (topNibble nnn).val = nnn.toNat / 256 ∧
    ∃ t, exec (.jumpOffset nnn x) s = .next t ∧
      t.pc.toNat = nnn.toNat + (if s.params.jumpOffsetUsesVx then s.getV x else s.getV 0).toNat ∧ t.pc.toNat ≤ 0x10FE ∧
      Frame { pc := true } s t

/-- R125, R126. -/
def Obligations.ImmediateSkipsCompareWithTheImmediate : Prop :=
  ∀ (p : Params) (s : State) (x : RegIdx) (kk : Byte),
    decode p (wordXkk 0x3 x kk) = .instr (.skipIfEqImm x kk) ∧ decode p (wordXkk 0x4 x kk) = .instr (.skipIfNeImm x kk) ∧
    (∃ t, exec (.skipIfEqImm x kk) s = .next t ∧ t.pc = (if s.getV x = kk then s.pc + 2 else s.pc) ∧
      Frame { pc := true } s t) ∧
    (∃ t, exec (.skipIfNeImm x kk) s = .next t ∧ t.pc = (if s.getV x = kk then s.pc else s.pc + 2) ∧
      Frame { pc := true } s t)

/-- R127, R128: the low nibble of the word is ignored, unless `P_SKIPREG_STRICT`. -/
def Obligations.RegisterSkipsCompareTwoRegisters : Prop :=
  ∀ (p : Params) (s : State) (x y : RegIdx) (n : Fin 16),
    decode p (wordXyn 0x5 x y n) =
      (if p.skipRegStrict = true ∧ n ≠ 0 then .decodeFailure (wordXyn 0x5 x y n) else .instr (.skipIfEqReg x y)) ∧
    decode p (wordXyn 0x9 x y n) =
      (if p.skipRegStrict = true ∧ n ≠ 0 then .decodeFailure (wordXyn 0x9 x y n) else .instr (.skipIfNeReg x y)) ∧
    (∃ t, exec (.skipIfEqReg x y) s = .next t ∧ t.pc = (if s.getV x = s.getV y then s.pc + 2 else s.pc) ∧
      Frame { pc := true } s t) ∧
    (∃ t, exec (.skipIfNeReg x y) s = .next t ∧ t.pc = (if s.getV x = s.getV y then s.pc else s.pc + 2) ∧
      Frame { pc := true } s t)

/-! ## Register loads, arithmetic, logic, shifts, random -/

/-- R140, R141, R142: no flag is written. -/
def Obligations.LoadsAndImmediateAddWriteOneRegister : Prop :=
  ∀ (p : Params) (s : State) (x y : RegIdx) (kk : Byte),
    decode p (wordXkk 0x6 x kk) = .instr (.setImm x kk) ∧ decode p (wordXkk 0x7 x kk) = .instr (.addImm x kk) ∧
    decode p (wordXyn 0x8 x y 0x0) = .instr (.setReg x y) ∧
    (∃ t, exec (.setImm x kk) s = .next t ∧ t.getV x = kk ∧ Frame { v := [x] } s t) ∧
    (∃ t, exec (.addImm x kk) s = .next t ∧ (t.getV x).toNat = ((s.getV x).toNat + kk.toNat) % 256 ∧
      Frame { v := [x] } s t) ∧
    (∃ t, exec (.setReg x y) s = .next t ∧ t.getV x = s.getV y ∧ Frame { v := [x] } s t)

/-- R143, R144, R145, R148: bit by bit; VF is written only as the destination, or, with `P_LOGIC_RESETS_VF`, with 0 after the
result. -/
def Obligations.LogicInstructionsWorkBitByBit : Prop :=
  ∀ (p : Params) (s : State) (x y : RegIdx),
    decode p (wordXyn 0x8 x y 0x1) = .instr (.orRegs x y) ∧ decode p (wordXyn 0x8 x y 0x2) = .instr (.andRegs x y) ∧
    decode p (wordXyn 0x8 x y 0x3) = .instr (.xorRegs x y) ∧
    ∀ (i : Instr) (f : Bool → Bool → Bool),
      (i = .orRegs x y ∧ f = or) ∨ (i = .andRegs x y ∧ f = and) ∨ (i = .xorRegs x y ∧ f = xor) →
      ∃ t, exec i s = .next t ∧
        (s.params.logicResetsVf = false →
          (∀ b < 8, (t.getV x).getLsbD b = f ((s.getV x).getLsbD b) ((s.getV y).getLsbD b)) ∧ Frame { v := [x] } s t) ∧
        (s.params.logicResetsVf = true →
          t.getV 0xF = 0 ∧
          (x ≠ 0xF → ∀ b < 8, (t.getV x).getLsbD b = f ((s.getV x).getLsbD b) ((s.getV y).getLsbD b)) ∧
          Frame { v := [x, 0xF] } s t)

/-- R146: the sum modulo 256, VF the carry, written last. -/
def Obligations.AddWritesTheSumAndTheCarry : Prop :=
  ∀ (p : Params) (s : State) (x y : RegIdx),
    decode p (wordXyn 0x8 x y 0x4) = .instr (.addRegs x y) ∧
    ∃ t, exec (.addRegs x y) s = .next t ∧
      (x ≠ 0xF → (t.getV x).toNat = ((s.getV x).toNat + (s.getV y).toNat) % 256) ∧
      t.getV 0xF = (if (s.getV x).toNat + (s.getV y).toNat > 255 then 1 else 0) ∧
      Frame { v := [x, 0xF] } s t

/-- R147, R149: the difference modulo 256, VF not-borrow, written last; SUBN's minuend is `V[y]`. -/
def Obligations.SubtractionsWriteTheDifferenceAndNotBorrow : Prop :=
  ∀ (p : Params) (s : State) (x y : RegIdx),
    decode p (wordXyn 0x8 x y 0x5) = .instr (.subRegs x y) ∧ decode p (wordXyn 0x8 x y 0x7) = .instr (.subReversed x y) ∧
    (∃ t, exec (.subRegs x y) s = .next t ∧
      (x ≠ 0xF → (t.getV x).toNat = (256 + (s.getV x).toNat - (s.getV y).toNat) % 256) ∧
      t.getV 0xF = (if (s.getV x).toNat ≥ (s.getV y).toNat then 1 else 0) ∧ Frame { v := [x, 0xF] } s t) ∧
    (∃ t, exec (.subReversed x y) s = .next t ∧
      (x ≠ 0xF → (t.getV x).toNat = (256 + (s.getV y).toNat - (s.getV x).toNat) % 256) ∧
      t.getV 0xF = (if (s.getV y).toNat ≥ (s.getV x).toNat then 1 else 0) ∧ Frame { v := [x, 0xF] } s t)

/-- R150, R151, R154: the shifts, VF the bit shifted out, written last, with both settings of `P_SHIFT_USES_VY`. -/
def Obligations.ShiftsWriteTheBitShiftedOut : Prop :=
  ∀ (p : Params) (s : State) (x y : RegIdx) (v : Nat),
    v = (if s.params.shiftUsesVy then s.getV y else s.getV x).toNat →
    decode p (wordXyn 0x8 x y 0x6) = .instr (.shiftRight x y) ∧ decode p (wordXyn 0x8 x y 0xE) = .instr (.shiftLeft x y) ∧
    (∃ t, exec (.shiftRight x y) s = .next t ∧ (x ≠ 0xF → (t.getV x).toNat = v / 2) ∧ (t.getV 0xF).toNat = v % 2 ∧
      Frame { v := [x, 0xF] } s t) ∧
    (∃ t, exec (.shiftLeft x y) s = .next t ∧ (x ≠ 0xF → (t.getV x).toNat = v * 2 % 256) ∧ (t.getV 0xF).toNat = v / 128 ∧
      Frame { v := [x, 0xF] } s t)

/-- R158, R157: the random byte of the tick ANDed with the mask, for every byte the tick may bring. -/
def Obligations.RandomMasksTheByteOfTheTick : Prop :=
  ∀ (p : Params) (s : State) (x : RegIdx) (kk : Byte),
    decode p (wordXkk 0xC x kk) = .instr (.randomAnd x kk) ∧
    (∃ t, exec (.randomAnd x kk) s = .next t ∧
      (∀ b < 8, (t.getV x).getLsbD b = (s.env.inputs.rnd.getLsbD b && kk.getLsbD b)) ∧ Frame { v := [x] } s t) ∧
    (∀ inp : TickInputs, s.nextAction.1 = .tick inp → s.run = .running → s.pc.toNat + 1 < 4096 →
      s.memByte s.pc.toNat ++ s.memByte (s.pc.toNat + 1) = wordXkk 0xC x kk →
      ∃ t, step s = .next t ∧ ∀ b < 8, (t.getV x).getLsbD b = (inp.rnd.getLsbD b && kk.getLsbD b))

/-- R155's forms with `x = y` and R156's with `x = 0xF`, which the spec marks as derived from R142 to R151 and R33. -/
def Obligations.SameRegisterFormsGiveTheirFixedResults : Prop :=
  ∀ (s : State) (x : RegIdx),
    ∃ ld oor aand xxor add sub subn : State,
      exec (.setReg x x) s = .next ld ∧ exec (.orRegs x x) s = .next oor ∧ exec (.andRegs x x) s = .next aand ∧
      exec (.xorRegs x x) s = .next xxor ∧ exec (.addRegs x x) s = .next add ∧ exec (.subRegs x x) s = .next sub ∧
      exec (.subReversed x x) s = .next subn ∧
      ld = s ∧ (s.params.logicResetsVf = false → oor = s ∧ aand = s) ∧ xxor.getV x = 0 ∧
      (x ≠ 0xF → (add.getV x).toNat = 2 * (s.getV x).toNat % 256 ∧ sub.getV x = 0 ∧ subn.getV x = 0) ∧
      (add.getV 0xF).toNat = (s.getV x).toNat / 128 ∧ sub.getV 0xF = 1 ∧ subn.getV 0xF = 1

/-- R153, which the spec marks as derived, with R178: after an instruction that wrote VF as a flag, VF is 0 or 1. -/
def Obligations.FlagSettersLeaveZeroOrOne : Prop :=
  ∀ (i : Instr) (s t : State), writesFlag s.params i = true → s.run = .running →
    exec i s = .next t → t.run = .running → t.getV 0xF = 0 ∨ t.getV 0xF = 1

/-! ## Display -/

/-- R170. -/
def Obligations.ClearBlanksTheFramebuffer : Prop :=
  ∀ (p : Params) (s : State),
    decode p 0x00E0 = .instr .clearDisplay ∧
    ∃ t, exec .clearDisplay s = .next t ∧ (∀ r c : Nat, r < 32 → c < 64 → t.fb.cell r c = false) ∧
      Frame { fb := true } s t

/-- Whether `DRW Vx, Vy, n` in state `s` has a set sprite bit at cell `(r, c)` of a row it draws: row `r - V[y]` of the sprite,
wholly inside the framebuffer, bit 7 leftmost (R172 to R175). -/
def Sys2Proof.Machine.spriteSets (s : State) (x y : RegIdx) (n : Fin 16) (r c : Nat) : Bool :=
  decide ((s.getV y).toNat ≤ r ∧ r < (s.getV y).toNat + n.val ∧ r ≤ 31 ∧ (s.getV x).toNat + 8 ≤ 64 ∧
    (s.getV x).toNat ≤ c ∧ c < (s.getV x).toNat + 8) &&
  (s.memByte (s.i.toNat + (r - (s.getV y).toNat))).getLsbD (7 - (c - (s.getV x).toNat))

/-- R171 to R178: the XOR of every cell, the collision in VF, and nothing else (`n = 0` reads nothing and clears VF, R179);
when the sprite bytes run past 0xFFF, those of clipped rows included, the MemReadBounds fault and nothing else. -/
def Obligations.DrawXorsTheSpriteAndReportsCollisionOrFaults : Prop :=
  ∀ (p : Params) (s : State) (x y : RegIdx) (n : Fin 16),
    decode p (wordXyn 0xD x y n) = .instr (.drawSprite x y n) ∧
    (n.val = 0 ∨ s.i.toNat + (n.val - 1) < 4096 →
      ∃ t, exec (.drawSprite x y n) s = .next t ∧
        (∀ r c : Nat, r < 32 → c < 64 → t.fb.cell r c = xor (s.fb.cell r c) (spriteSets s x y n r c)) ∧
        ((∃ r c : Nat, spriteSets s x y n r c = true ∧ s.fb.cell r c = true) → t.getV 0xF = 1) ∧
        ((¬∃ r c : Nat, spriteSets s x y n r c = true ∧ s.fb.cell r c = true) → t.getV 0xF = 0) ∧
        Frame { v := [0xF], fb := true } s t) ∧
    (0 < n.val ∧ s.i.toNat + (n.val - 1) ≥ 4096 →
      ∃ t, exec (.drawSprite x y n) s = .next t ∧ FaultsWith .memReadBounds (max s.i.toNat 4096) s t)

/-- R180, which the spec marks as derived from R175 to R178: drawing twice restores the framebuffer, and the second draw
collides exactly when a drawn sprite bit fell on an unlit cell. -/
def Obligations.DrawingTwiceRestoresTheFramebuffer : Prop :=
  ∀ (s t : State) (x y : RegIdx) (n : Fin 16), n.val = 0 ∨ s.i.toNat + (n.val - 1) < 4096 →
    exec (.drawSprite x y n) s = .next t → t.getV x = s.getV x → t.getV y = s.getV y →
    ∃ u, exec (.drawSprite x y n) t = .next u ∧ u.fb = s.fb ∧
      (u.getV 0xF = 1 ↔ ∃ r c : Nat, spriteSets s x y n r c = true ∧ s.fb.cell r c = false)

/-! ## Keys -/

/-- R193, R194, R195, R196: the key skips consume the most recent key, match or not, and compare all 8 bits; with no key
queued they do nothing. -/
def Obligations.KeySkipsConsumeTheMostRecentKey : Prop :=
  ∀ (p : Params) (s : State) (x : RegIdx),
    decode p (wordXkk 0xE x 0x9E) = .instr (.skipIfKey x) ∧ decode p (wordXkk 0xE x 0xA1) = .instr (.skipIfNotKey x) ∧
    (s.keys = [] →
      (∃ t, exec (.skipIfKey x) s = .next t ∧ Frame {} s t) ∧ ∃ t, exec (.skipIfNotKey x) s = .next t ∧ Frame {} s t) ∧
    (∀ (ks : List KeyIdx) (k : KeyIdx), s.keys = ks ++ [k] →
      (∃ t, exec (.skipIfKey x) s = .next t ∧ t.keys = ks ∧
        t.pc = (if k.val = (s.getV x).toNat then s.pc + 2 else s.pc) ∧ Frame { pc := true, keys := true } s t) ∧
      (∃ t, exec (.skipIfNotKey x) s = .next t ∧ t.keys = ks ∧
        t.pc = (if k.val = (s.getV x).toNat then s.pc else s.pc + 2) ∧ Frame { pc := true, keys := true } s t))

/-- R197: a queued key is stored at once; with none the core waits for register `x`. -/
def Obligations.LoadKeyStoresOrWaits : Prop :=
  ∀ (p : Params) (s : State) (x : RegIdx),
    decode p (wordXkk 0xF x 0x0A) = .instr (.loadKey x) ∧
    (∀ (ks : List KeyIdx) (k : KeyIdx), s.keys = ks ++ [k] →
      ∃ t, exec (.loadKey x) s = .next t ∧ (t.getV x).toNat = k.val ∧ t.keys = ks ∧
        Frame { v := [x], keys := true } s t) ∧
    (s.keys = [] → ∃ t, exec (.loadKey x) s = .next t ∧ t.run = .awaitingKey x ∧ Frame { run := true } s t)

/-! ## Index register, timers, memory transfer -/

/-- R210, R214, R215: no flag is written. -/
def Obligations.IndexInstructionsWriteOnlyI : Prop :=
  ∀ (p : Params) (s : State) (x : RegIdx) (nnn : Addr12),
    decode p (wordNnn 0xA nnn) = .instr (.setIndex nnn) ∧ decode p (wordXkk 0xF x 0x1E) = .instr (.addIndex x) ∧
    decode p (wordXkk 0xF x 0x29) = .instr (.setIndexToDigit x) ∧
    (∃ t, exec (.setIndex nnn) s = .next t ∧ t.i.toNat = nnn.toNat ∧ Frame { i := true } s t) ∧
    (∃ t, exec (.addIndex x) s = .next t ∧ t.i.toNat = (s.i.toNat + (s.getV x).toNat) % 65536 ∧
      Frame { i := true } s t) ∧
    (∃ t, exec (.setIndexToDigit x) s = .next t ∧ t.i.toNat = 5 * (s.getV x).toNat ∧ Frame { i := true } s t)

/-- R211, R212, R213. -/
def Obligations.TimerInstructionsMoveOneByte : Prop :=
  ∀ (p : Params) (s : State) (x : RegIdx),
    decode p (wordXkk 0xF x 0x07) = .instr (.getDelay x) ∧ decode p (wordXkk 0xF x 0x15) = .instr (.setDelay x) ∧
    decode p (wordXkk 0xF x 0x18) = .instr (.setSound x) ∧
    (∃ t, exec (.getDelay x) s = .next t ∧ t.getV x = s.dt ∧ Frame { v := [x] } s t) ∧
    (∃ t, exec (.setDelay x) s = .next t ∧ t.dt = s.getV x ∧ Frame { dt := true } s t) ∧
    (∃ t, exec (.setSound x) s = .next t ∧ t.st = s.getV x ∧ Frame { st := true } s t)

/-- R216: the digits at `I`, `I + 1`, `I + 2`, or the MemWriteBounds fault and no byte. -/
def Obligations.StoreBcdWritesThreeDigitsOrFaults : Prop :=
  ∀ (p : Params) (s : State) (x : RegIdx),
    decode p (wordXkk 0xF x 0x33) = .instr (.storeBcd x) ∧
    (s.i.toNat + 2 < 4096 →
      ∃ t, exec (.storeBcd x) s = .next t ∧ (t.memByte s.i.toNat).toNat = (s.getV x).toNat / 100 ∧
        (t.memByte (s.i.toNat + 1)).toNat = (s.getV x).toNat / 10 % 10 ∧
        (t.memByte (s.i.toNat + 2)).toNat = (s.getV x).toNat % 10 ∧
        Frame { memBase := s.i.toNat, memLen := 3 } s t) ∧
    (s.i.toNat + 2 ≥ 4096 →
      ∃ t, exec (.storeBcd x) s = .next t ∧ FaultsWith .memWriteBounds (max s.i.toNat 4096) s t)

/-- R217, R218: `V0..Vx` to `I .. I + x`, or the MemWriteBounds fault and no byte. -/
def Obligations.StoreRegsWritesTheRegistersOrFaults : Prop :=
  ∀ (p : Params) (s : State) (x : RegIdx),
    decode p (wordXkk 0xF x 0x55) = .instr (.storeRegs x) ∧
    (s.i.toNat + x.val < 4096 →
      ∃ t, exec (.storeRegs x) s = .next t ∧ (∀ j : RegIdx, j ≤ x → t.memByte (s.i.toNat + j.val) = s.getV j) ∧
        t.i.toNat = (if s.params.ldiIncrementsI then (s.i.toNat + x.val + 1) % 65536 else s.i.toNat) ∧
        Frame { memBase := s.i.toNat, memLen := x.val + 1, i := true } s t) ∧
    (s.i.toNat + x.val ≥ 4096 →
      ∃ t, exec (.storeRegs x) s = .next t ∧ FaultsWith .memWriteBounds (max s.i.toNat 4096) s t)

/-- R219, R218: `V0..Vx` from `I .. I + x`, or the MemReadBounds fault and no register. -/
def Obligations.LoadRegsReadsTheRegistersOrFaults : Prop :=
  ∀ (p : Params) (s : State) (x : RegIdx),
    decode p (wordXkk 0xF x 0x65) = .instr (.loadRegs x) ∧
    (s.i.toNat + x.val < 4096 →
      ∃ t, exec (.loadRegs x) s = .next t ∧ (∀ j : RegIdx, j ≤ x → t.getV j = s.memByte (s.i.toNat + j.val)) ∧
        t.i.toNat = (if s.params.ldiIncrementsI then (s.i.toNat + x.val + 1) % 65536 else s.i.toNat) ∧
        Frame { v := (List.finRange 16).filter fun j => j ≤ x, i := true } s t) ∧
    (s.i.toNat + x.val ≥ 4096 →
      ∃ t, exec (.loadRegs x) s = .next t ∧ FaultsWith .memReadBounds (max s.i.toNat 4096) s t)

/-- Derived from R217 and R219: what a bulk store wrote, a bulk load from the same address brings back, whatever the registers
hold between. -/
def Obligations.StoreThenLoadRestoresTheRegisters : Prop :=
  ∀ (s : State) (x : RegIdx) (between : Vector Byte 16), s.i.toNat + x.val < 4096 →
    ∃ t u, exec (.storeRegs x) s = .next t ∧ exec (.loadRegs x) { t with v := between, i := s.i } = .next u ∧
      ∀ j : RegIdx, u.getV j = if j ≤ x then s.getV j else between.get j

/-- R262, which the spec marks as derived: after `LD F, Vx` of a digit, with the font in place, `I` addresses the digit's five
rows. -/
def Obligations.DigitAddressPointsAtItsGlyph : Prop :=
  ∀ (s : State) (x : RegIdx), (s.getV x).toNat < 16 → (∀ k : Fin 80, s.memByte k.val = s.params.font.get k) →
    ∃ t, exec (.setIndexToDigit x) s = .next t ∧
      ∀ r < 5, some (t.memByte (t.i.toNat + r)) = s.params.font[5 * (s.getV x).toNat + r]?

/-- R76, which the spec marks as derived: bytes a store put at `pc` are the word the next fetch reads, big-endian (R68). -/
def Obligations.FetchSeesTheBytesJustStored : Prop :=
  ∀ (s t : State) (x : RegIdx), 1 ≤ x.val → s.i = s.pc → s.pc.toNat + x.val < 4096 →
    exec (.storeRegs x) s = .next t →
    t.canFetch = true ∧ t.fetchWord.toNat = (s.getV 0).toNat * 256 + (s.getV 1).toNat

/-! ## Encoding -/

/-- The decoder undoes the encoder, on every well-formed instruction and under every setting of the parameters. -/
def Obligations.DecodeUndoesEncode : Prop :=
  ∀ (p : Params) (i : Instr), i.wf = true → decode p (encode i) = .instr i

/-- The words of the spec's own examples and decoder vectors (R82 and the decoder table of 95_test_vectors.md), under the
default parameters. -/
def Obligations.ExampleWordsDecodeAsTheSpecSays : Prop :=
  decode .default 0x600A = .instr (.setImm 0 0x0A) ∧ decode .default 0x6105 = .instr (.setImm 1 0x05) ∧
  decode .default 0x8014 = .instr (.addRegs 0 1) ∧ decode .default 0x0000 = .decodeFailure 0x0000 ∧
  decode .default 0x01E0 = .decodeFailure 0x01E0 ∧
  decode { Params.default with class0LowbyteOnly := true } 0x01E0 = .instr .clearDisplay ∧
  decode .default 0x5121 = .instr (.skipIfEqReg 1 2) ∧
  decode { Params.default with skipRegStrict := true } 0x5121 = .decodeFailure 0x5121 ∧
  decode .default 0x9AB0 = .instr (.skipIfNeReg 0xA 0xB) ∧ decode .default 0x800E = .instr (.shiftLeft 0 0) ∧
  decode .default 0xBFFF = .instr (.jumpOffset 0xFFF 0xF) ∧ decode .default 0xD000 = .instr (.drawSprite 0 0 0) ∧
  decode .default 0xF165 = .instr (.loadRegs 1) ∧ decode .default 0xFFFF = .decodeFailure 0xFFFF

/-- R90, which the spec marks as derived from R86 to R89 and R95, extended to every setting of the parameters by R87 and R88:
exactly which words fail to decode. -/
def Obligations.DecodeFailsExactlyOnTheseWords : Prop :=
  ∀ (p : Params) (w : Word16),
    (w = 0x00E0 → decode p w = .instr .clearDisplay) ∧ (w = 0x00EE → decode p w = .instr .ret) ∧
    (w.toNat / 4096 = 0x0 → p.class0LowbyteOnly = true →
      (w.toNat % 256 = 0xE0 → decode p w = .instr .clearDisplay) ∧ (w.toNat % 256 = 0xEE → decode p w = .instr .ret)) ∧
    (∀ v, decode p w = .decodeFailure v → v = w) ∧
    (decode p w = .decodeFailure w ↔
      (w.toNat / 4096 = 0x0 ∧ p.class0LowbyteOnly = false ∧ w ≠ 0x00E0 ∧ w ≠ 0x00EE) ∨
      (w.toNat / 4096 = 0x0 ∧ p.class0LowbyteOnly = true ∧ w.toNat % 256 ≠ 0xE0 ∧ w.toNat % 256 ≠ 0xEE) ∨
      ((w.toNat / 4096 = 0x5 ∨ w.toNat / 4096 = 0x9) ∧ p.skipRegStrict = true ∧ w.toNat % 16 ≠ 0) ∨
      (w.toNat / 4096 = 0x8 ∧ w.toNat % 16 ∈ [0x8, 0x9, 0xA, 0xB, 0xC, 0xD, 0xF]) ∨
      (w.toNat / 4096 = 0xE ∧ w.toNat % 256 ∉ [0x9E, 0xA1]) ∨
      (w.toNat / 4096 = 0xF ∧ w.toNat % 256 ∉ [0x07, 0x0A, 0x15, 0x18, 0x1E, 0x29, 0x33, 0x55, 0x65]))

/-- R95: the decoder is the opcode map. A word decodes to an instruction of a row exactly when it matches the row under its
mask, and no word matches two rows, under every setting of the two parameters. -/
def Obligations.DecoderIsTheOpcodeMap : Prop :=
  ∀ (p : Params) (w : Word16) (i : Instr),
    (decode p w = .instr i → w &&& maskOf p i = matchOf i) ∧
    (w &&& maskOf p i = matchOf i → ∃ j, decode p w = .instr j ∧ matchOf j = matchOf i) ∧
    (∀ j, w &&& maskOf p i = matchOf i → w &&& maskOf p j = matchOf j → matchOf i = matchOf j)

/-! ## Invariants and whole-machine properties -/

/-- The invariant holds at reset. -/
def Obligations.ResetMeetsTheInvariant : Prop := StateInv State.reset

/-- Every step keeps the invariant: canonical memory, `pc` that never wraps, return addresses a fetch can have left, `S[0]`
unwritten, and `Faulted` with a record that says why. -/
def Obligations.EveryStepKeepsTheInvariant : Prop := ∀ s t : State, StateInv s → step s = .next t → StateInv t

/-- The canonical form of memory is canonical: memories that read the same are the same data (log entry 4). -/
def Obligations.CanonicalMemoriesAreEqualWhenTheyReadEqual : Prop :=
  ∀ m n : Memory, m.wf → n.wf → (∀ a, m.read a = n.read a) → m = n

/-- R42: no instruction reads the sound timer. -/
def Obligations.NoInstructionReadsTheSoundTimer : Prop :=
  ∀ (i : Instr) (s : State) (b : Byte),
    ∃ t c, exec i s = .next t ∧ exec i { s with st := b } = .next { t with st := c } ∧
      (((∃ x, i = .setSound x) ∧ c = t.st) ∨ ((∀ x, i ≠ .setSound x) ∧ t.st = s.st ∧ c = b))

/-- From R8, R157: the inputs of a tick reach the block through `RND`, the render and the decay alone. -/
def Obligations.OnlyRandomReadsTheTickInputs : Prop :=
  ∀ (i : Instr) (s : State) (inp : TickInputs), (∀ x kk, i ≠ .randomAnd x kk) →
    ∃ t, exec i s = .next t ∧
      exec i { s with env := { s.env with inputs := inp } } = .next { t with env := { t.env with inputs := inp } }

/-- From R11: no transaction writes the parameters. -/
def Obligations.NoTransactionWritesTheParameters : Prop := ∀ s t : State, step s = .next t → t.params = s.params

/-- R266, which the spec marks as derived: ticking after `construct` without a load executes decode failures up to 0x0FFE, and
the 1793rd tick faults in its fetch, whatever the inputs of the ticks. That the script is empty at reset, and that a step with an
empty script is a tick, is the model's choice (log entry 1). -/
def Obligations.TickingEmptyMemoryFaultsAtTheTop : Prop :=
  (∃ t : State, Host.Core.run Sys2Proof.core 1792 State.reset = .next t ∧ t.pc = 0x1000 ∧ t.run = .running) ∧
  (∃ t : State, Host.Core.run Sys2Proof.core 1793 State.reset = .next t ∧ t.run = .faulted ∧
    t.fault = ⟨.fetchBounds, 0x1000, 0x1000⟩)
end

