-- ==== Sys2Proof/Laws/Display.lean ====
section
/-! SUPPORT. The display: cells, the blit cell by cell, its collision, and the render sequence call by call. -/

namespace Sys2Proof.Machine

namespace Framebuffer

/-- Inside the framebuffer a cell is the element of its row. -/
theorem cell_inside (fb : Framebuffer) {r c : Nat} (hr : r < 32) (hc : c < 64) : cell fb r c = fb[r][c] := by
  simp [cell, hr, hc]

theorem cell_outside_row (fb : Framebuffer) {r : Nat} (hr : ¬r < 32) (c : Nat) : cell fb r c = false := by
  simp [cell, hr]

theorem cell_outside_col (fb : Framebuffer) (r : Nat) {c : Nat} (hc : ¬c < 64) : cell fb r c = false := by
  by_cases hr : r < 32
  · simp [cell, hr, hc]
  · exact cell_outside_row fb hr c

@[simp] theorem cell_blank (r c : Nat) : cell blank r c = false := by
  by_cases hr : r < 32
  · by_cases hc : c < 64
    · simp [cell_inside _ hr hc, blank]
    · exact cell_outside_col _ _ hc
  · exact cell_outside_row _ hr c

/-- Framebuffers whose cells are equal are equal. -/
theorem ext_cells {f g : Framebuffer} (h : ∀ r c : Nat, r < 32 → c < 64 → cell f r c = cell g r c) : f = g := by
  apply Vector.ext
  intro r hr
  apply Vector.ext
  intro c hc
  have := h r c hr hc
  rwa [cell_inside _ hr hc, cell_inside _ hr hc] at this

/-- Replacing row `y` by its XOR with a sprite byte, cell by cell. -/
theorem cell_set_xorRow (fb : Framebuffer) {y : Nat} (hy : y < 32) (x0 : Nat) (b : Byte) {r c : Nat} (hr : r < 32)
    (hc : c < 64) :
    cell (fb.set y (xorRow fb[y] x0 b)) r c = xor (cell fb r c) (decide (r = y) && spriteBit b x0 c) := by
  rw [cell_inside _ hr hc, cell_inside _ hr hc]
  by_cases h : r = y
  · subst h
    simp [xorRow, Vector.get_eq_getElem]
  · have h' : y ≠ r := fun e => h e.symm
    simp [Vector.getElem_set_ne _ _ h', h]

end Framebuffer

/-- A sprite bit falls only on the 8 columns from `x0`. -/
theorem spriteBit_range {b : Byte} {x0 c : Nat} (h : spriteBit b x0 c = true) : x0 ≤ c ∧ c < x0 + 8 := by
  simp only [spriteBit, Bool.and_eq_true, decide_eq_true_eq] at h
  exact h.1

/-- A row collides exactly when a set sprite bit falls on a lit cell of it (R177). -/
theorem rowCollides_iff (row : Vector Bool 64) (x0 : Nat) (b : Byte) :
    rowCollides row x0 b = true ↔ ∃ c, spriteBit b x0 c = true ∧ row[c]?.getD false = true := by
  simp only [rowCollides, List.any_eq_true, List.mem_range, Bool.and_eq_true]
  constructor
  · rintro ⟨k, hk, hb, hrow⟩
    exact ⟨x0 + k, by simp [spriteBit, hk, hb], hrow⟩
  · rintro ⟨c, hb, hrow⟩
    obtain ⟨h1, h2⟩ := spriteBit_range hb
    refine ⟨c - x0, by omega, ?_, ?_⟩
    · simp only [spriteBit, Bool.and_eq_true] at hb
      exact hb.2
    · have : x0 + (c - x0) = c := by omega
      rwa [this]

/-- Whether the sprite `bs` at column `x0`, row `y` has a set bit at cell `(r, c)` of a row that is drawn (R175). -/
def drawnBit (x0 y : Nat) (bs : List Byte) (r c : Nat) : Bool :=
  decide (y ≤ r ∧ r < y + bs.length ∧ r < 32 ∧ x0 + 8 ≤ 64) && spriteBit (bs[r - y]?.getD 0) x0 c

theorem drawnBit_nil (x0 y r c : Nat) : drawnBit x0 y [] r c = false := by
  have : ¬(y ≤ r ∧ r < y + ([] : List Byte).length ∧ r < 32 ∧ x0 + 8 ≤ 64) := by simp; omega
  simp only [drawnBit, this, decide_false, Bool.false_and]

theorem drawnBit_cons (x0 y : Nat) (b : Byte) (bs : List Byte) (r c : Nat) :
    drawnBit x0 y (b :: bs) r c =
      ((decide (r = y ∧ y < 32 ∧ x0 + 8 ≤ 64) && spriteBit b x0 c) || drawnBit x0 (y + 1) bs r c) := by
  by_cases h : r = y
  · subst h
    have h1 : (r ≤ r ∧ r < r + (b :: bs).length ∧ r < 32 ∧ x0 + 8 ≤ 64) ↔ (r = r ∧ r < 32 ∧ x0 + 8 ≤ 64) := by simp
    have h2 : ¬(r + 1 ≤ r ∧ r < r + 1 + bs.length ∧ r < 32 ∧ x0 + 8 ≤ 64) := by omega
    simp only [drawnBit, h1, h2, decide_false, Bool.false_and, Bool.or_false, Nat.sub_self, List.getElem?_cons_zero,
      Option.getD_some]
  · have h1 : ¬(r = y ∧ y < 32 ∧ x0 + 8 ≤ 64) := fun e => h e.1
    have h2 : (y ≤ r ∧ r < y + (b :: bs).length ∧ r < 32 ∧ x0 + 8 ≤ 64) ↔
        (y + 1 ≤ r ∧ r < y + 1 + bs.length ∧ r < 32 ∧ x0 + 8 ≤ 64) := by simp only [List.length_cons]; omega
    by_cases hy : y < r
    · have h3 : r - y = (r - (y + 1)) + 1 := by omega
      simp only [drawnBit, h1, h2, h3, decide_false, Bool.false_and, Bool.false_or, List.getElem?_cons_succ]
    · have h3 : ¬(y + 1 ≤ r ∧ r < y + 1 + bs.length ∧ r < 32 ∧ x0 + 8 ≤ 64) := by omega
      simp only [drawnBit, h1, h2, h3, decide_false, Bool.false_and, Bool.false_or]

/-- A cell at which a drawn bit falls lies inside the framebuffer. -/
theorem drawnBit_inside {x0 y : Nat} {bs : List Byte} {r c : Nat} (h : drawnBit x0 y bs r c = true) : r < 32 ∧ c < 64 := by
  simp only [drawnBit, Bool.and_eq_true, decide_eq_true_eq] at h
  have := spriteBit_range h.2
  omega

/-- The rows below the first leave the first row's cells alone. -/
theorem drawnBit_below (x0 y : Nat) (bs : List Byte) (c : Nat) : drawnBit x0 (y + 1) bs y c = false := by
  have : ¬(y + 1 ≤ y ∧ y < y + 1 + bs.length ∧ y < 32 ∧ x0 + 8 ≤ 64) := by omega
  simp only [drawnBit, this, decide_false, Bool.false_and]

/-- The blit, cell by cell: every cell becomes its old value XOR the sprite bit drawn on it (R176). -/
theorem blit_cell (x0 y : Nat) (bs : List Byte) (fb : Framebuffer) {r c : Nat} (hr : r < 32) (hc : c < 64) :
    (blit x0 y bs fb).1.cell r c = xor (fb.cell r c) (drawnBit x0 y bs r c) := by
  induction bs generalizing y fb with
  | nil => simp [blit, drawnBit_nil]
  | cons b bs ih =>
    rw [drawnBit_cons]
    by_cases h : y < 32 ∧ x0 + 8 ≤ 64
    · rw [blit, dif_pos h]
      simp only [ih, Framebuffer.cell_set_xorRow fb h.1 x0 b hr hc]
      by_cases hy : r = y
      · subst hy; simp [h, drawnBit_below]
      · simp [hy]
    · rw [blit, dif_neg h, ih]
      have : ¬(r = y ∧ y < 32 ∧ x0 + 8 ≤ 64) := fun e => h e.2
      simp only [this, decide_false, Bool.false_and, Bool.false_or]

/-- The blit collides exactly when a drawn sprite bit falls on a lit cell (R177). -/
theorem blit_collides_iff (x0 y : Nat) (bs : List Byte) (fb : Framebuffer) :
    (blit x0 y bs fb).2 = true ↔ ∃ r c : Nat, drawnBit x0 y bs r c = true ∧ fb.cell r c = true := by
  induction bs generalizing y fb with
  | nil => simp [blit, drawnBit_nil]
  | cons b bs ih =>
    have hrest : ∀ fb' : Framebuffer, (∀ r c : Nat, r ≠ y → fb'.cell r c = fb.cell r c) →
        ((∃ r c : Nat, drawnBit x0 (y + 1) bs r c = true ∧ fb'.cell r c = true) ↔
          ∃ r c : Nat, drawnBit x0 (y + 1) bs r c = true ∧ fb.cell r c = true) := by
      intro fb' hfb'
      refine exists_congr fun r => exists_congr fun c => and_congr_right fun hd => ?_
      have : r ≠ y := by
        rintro rfl
        simp [drawnBit_below] at hd
      rw [hfb' r c this]
    by_cases h : y < 32 ∧ x0 + 8 ≤ 64
    · rw [blit, dif_pos h]
      have hset : ∀ r c : Nat, r ≠ y → Framebuffer.cell (fb.set y (xorRow fb[y] x0 b)) r c = fb.cell r c := by
        intro r c hne
        by_cases hr : r < 32
        · by_cases hc : c < 64
          · simp [Framebuffer.cell_set_xorRow fb h.1 x0 b hr hc, hne]
          · rw [Framebuffer.cell_outside_col _ _ hc, Framebuffer.cell_outside_col _ _ hc]
        · rw [Framebuffer.cell_outside_row _ hr, Framebuffer.cell_outside_row _ hr]
      simp only [Bool.or_eq_true, rowCollides_iff, ih, hrest _ hset, drawnBit_cons]
      constructor
      · rintro (⟨c, hb, hrow⟩ | ⟨r, c, hd, hcell⟩)
        · refine ⟨y, c, by simp [h, hb], ?_⟩
          simpa [Framebuffer.cell, h.1] using hrow
        · exact ⟨r, c, by simp [hd], hcell⟩
      · rintro ⟨r, c, hd, hcell⟩
        rcases hd with hd | hd
        · simp only [Bool.and_eq_true, decide_eq_true_eq] at hd
          obtain ⟨⟨rfl, -⟩, hb⟩ := hd
          refine .inl ⟨c, hb, ?_⟩
          simpa [Framebuffer.cell, h.1] using hcell
        · exact .inr ⟨r, c, hd, hcell⟩
    · rw [blit, dif_neg h, ih]
      refine exists_congr fun r => exists_congr fun c => and_congr_left fun _ => ?_
      have : ¬(r = y ∧ y < 32 ∧ x0 + 8 ≤ 64) := fun e => h e.2
      simp only [drawnBit_cons, this, decide_false, Bool.false_and, Bool.false_or]

/-! The render sequence (R183). -/

@[simp] theorem renderRow_length (fb : Framebuffer) (pw ph r : Nat) : (renderRow fb pw ph r).length = 64 := by
  simp [renderRow, Config.fbWidth]

/-- Rows of 64 calls each, one after the other. -/
theorem flatMap_rows_getElem? (f : Nat → List RenderCall) (hf : ∀ r, (f r).length = 64) (n r c : Nat) (hr : r < n)
    (hc : c < 64) : ((List.range n).flatMap f)[r * 64 + c]? = (f r)[c]? := by
  induction n with
  | zero => omega
  | succ n ih =>
    have hlen : ∀ m, ((List.range m).flatMap f).length = m * 64 := by
      intro m
      induction m with
      | zero => rfl
      | succ m ihm => rw [List.range_succ, List.flatMap_append, List.length_append, ihm]; simp [hf]; omega
    rw [List.range_succ, List.flatMap_append]
    by_cases h : r < n
    · rw [List.getElem?_append_left (by rw [hlen]; omega), ih h]
    · have : r = n := by omega
      subst this
      rw [List.getElem?_append_right (by rw [hlen]; omega), hlen]
      simp

@[simp] theorem renderCells_length (fb : Framebuffer) (pw ph : Nat) : (renderCells fb pw ph).length = 2048 := by
  simp [renderCells, List.length_flatMap, Config.fbHeight]

@[simp] theorem renderCalls_length (fb : Framebuffer) (w h : Nat) : (renderCalls fb w h).length = 2050 := by
  simp [renderCalls]

/-- Call `1 + r * 64 + c` of the sequence draws cell `(r, c)`. -/
theorem renderCalls_cell (fb : Framebuffer) (w h : Nat) {r c : Nat} (hr : r < 32) (hc : c < 64) :
    (renderCalls fb w h)[1 + r * 64 + c]? =
      some (.fillRect (c * (w / 64)) (r * (h / 32)) (w / 64) (h / 32) (colourOf (fb.cell r c))) := by
  have h1 : 1 + r * 64 + c = (r * 64 + c) + 1 := by omega
  have h2 : r * 64 + c < 2048 := by omega
  rw [renderCalls, h1, List.cons_append, List.getElem?_cons_succ, List.getElem?_append_left (by simpa using h2)]
  refine (flatMap_rows_getElem? (renderRow fb (w / 64) (h / 32)) (renderRow_length _ _ _) 32 r c hr hc).trans ?_
  simp [renderRow, Config.fbWidth, hc]

end Sys2Proof.Machine
end

