-- ==== Sys2Proof/Laws/Memory.lean ====
section
/-! SUPPORT. Memory: a read after a write, the canonical form, and the bounds check. -/

namespace Sys2Proof.Machine

namespace Memory

theorem read_erase_same (m : Memory) (a : Nat) : (m.erase a).read a = resetByte a := by
  induction m with
  | nil => rfl
  | cons c m ih =>
    obtain ⟨b, u⟩ := c
    by_cases h : b = a
    · simpa [erase, h] using ih
    · simpa [erase, h, read] using ih

theorem read_erase_ne (m : Memory) {a c : Nat} (h : c ≠ a) : (m.erase a).read c = m.read c := by
  induction m with
  | nil => rfl
  | cons d m ih =>
    obtain ⟨b, u⟩ := d
    by_cases hb : b = a
    · have hc : ¬a = c := fun e => h e.symm
      simpa [erase, hb, read, hc] using ih
    · by_cases hbc : b = c
      · subst hbc; simp [erase, hb, read]
      · simpa [erase, hb, read, hbc] using ih

theorem mem_insert {m : Memory} {a : Nat} {u : Byte} {c : Host.Cell} : c ∈ m.insert a u ↔ c = (a, u) ∨ c ∈ m := by
  induction m with
  | nil => simp [insert]
  | cons d m ih =>
    obtain ⟨b, v⟩ := d
    by_cases h : a < b
    · simp [insert, h]
    · simp only [insert, h, if_false, List.mem_cons, ih]; tauto

theorem read_insert (m : Memory) {a : Nat} (u : Byte) (ha : ∀ c ∈ m, c.1 ≠ a) (c : Nat) :
    (m.insert a u).read c = if c = a then u else m.read c := by
  induction m with
  | nil => by_cases h : a = c <;> simp [insert, read, h, eq_comm]
  | cons d m ih =>
    obtain ⟨b, v⟩ := d
    have hb : b ≠ a := ha (b, v) (by simp)
    have ih := ih fun c hc => ha c (by simp [hc])
    by_cases h : a < b
    · by_cases hc : a = c
      · subst hc; simp [insert, h, read]
      · simp [insert, h, read, hc, Ne.symm hc]
    · by_cases hbc : b = c
      · subst hbc; simp [insert, h, read, hb]
      · simp [insert, h, read, hbc, ih]

theorem mem_erase {m : Memory} {a : Nat} {c : Host.Cell} : c ∈ m.erase a ↔ c ∈ m ∧ c.1 ≠ a := by simp [erase]

/-- A write changes the byte it names and no other (R65); no premise on the list. -/
theorem read_write (m : Memory) (a : Nat) (u : Byte) (c : Nat) : (m.write a u).read c = if c = a then u else m.read c := by
  have hne : ∀ d ∈ m.erase a, d.1 ≠ a := fun d hd => (mem_erase.1 hd).2
  by_cases hu : u = resetByte a
  · by_cases hc : c = a
    · subst hc; simp [write, ← hu, read_erase_same]
    · simp [write, hu, hc, read_erase_ne]
  · by_cases hc : c = a
    · simp [write, hu, read_insert _ _ hne, hc]
    · simp [write, hu, read_insert _ _ hne, hc, read_erase_ne]

/-- A run of writes changes the bytes it names and no other. -/
theorem read_writeList (m : Memory) (a : Nat) (us : List Byte) (c : Nat) :
    (m.writeList a us).read c = if h : a ≤ c ∧ c < a + us.length then us[c - a] else m.read c := by
  induction us generalizing m a with
  | nil =>
    have h : ¬(a ≤ c ∧ c < a + ([] : List Byte).length) := by simp
    rw [dif_neg h, writeList]
  | cons u us ih =>
    rw [writeList, ih]
    by_cases h1 : c = a
    · subst h1
      have : ¬(c + 1 ≤ c ∧ c < c + 1 + us.length) := by omega
      simp [read_write]
    · by_cases h2 : a + 1 ≤ c ∧ c < a + 1 + us.length
      · have h3 : a ≤ c ∧ c < a + (u :: us).length := by simp; omega
        rw [dif_pos h2, dif_pos h3]
        have : c - a = (c - (a + 1)) + 1 := by omega
        simp [this]
      · have h3 : ¬(a ≤ c ∧ c < a + (u :: us).length) := by simp; omega
        rw [dif_neg h2, dif_neg h3, read_write, if_neg h1]

theorem read_writeList_outside (m : Memory) {a : Nat} {us : List Byte} {c : Nat} (h : ¬(a ≤ c ∧ c < a + us.length)) :
    (m.writeList a us).read c = m.read c := by rw [read_writeList, dif_neg h]

theorem read_writeList_inside (m : Memory) (a : Nat) (us : List Byte) (k : Nat) (h : k < us.length) :
    (m.writeList a us).read (a + k) = us[k] := by
  have h' : a ≤ a + k ∧ a + k < a + us.length := by omega
  rw [read_writeList, dif_pos h']
  simp

/-! The canonical form. -/

theorem wf_nil : wf [] := by simp [wf]

theorem wf_erase {m : Memory} (h : m.wf) (a : Nat) : (m.erase a).wf :=
  ⟨h.1.filter _, fun c hc => h.2 c (mem_erase.1 hc).1⟩

theorem wf_insert {m : Memory} {a : Nat} {u : Byte} (h : m.wf) (ha : ∀ c ∈ m, c.1 ≠ a) (hlt : a < Config.memSize)
    (hu : u ≠ resetByte a) : (m.insert a u).wf := by
  constructor
  · have hp := h.1
    clear h hlt hu
    induction m with
    | nil => simp [insert]
    | cons d m ih =>
      obtain ⟨b, v⟩ := d
      rw [List.pairwise_cons] at hp
      by_cases hab : a < b
      · simp only [insert, hab, if_true, List.pairwise_cons]
        refine ⟨fun c hc => ?_, hp⟩
        rcases List.mem_cons.1 hc with rfl | hc
        · exact hab
        · exact lt_trans hab (hp.1 c hc)
      · simp only [insert, hab, if_false, List.pairwise_cons]
        refine ⟨fun c hc => ?_, ih (fun c hc => ha c (by simp [hc])) hp.2⟩
        rcases mem_insert.1 hc with rfl | hc
        · have : b ≠ a := ha (b, v) (by simp)
          simp only; omega
        · exact hp.1 c hc
  · intro c hc
    rcases mem_insert.1 hc with rfl | hc
    · exact ⟨hlt, hu⟩
    · exact h.2 c hc

/-- A write inside memory keeps the canonical form. -/
theorem wf_write {m : Memory} (h : m.wf) {a : Nat} (ha : a < Config.memSize) (u : Byte) : (m.write a u).wf := by
  by_cases hu : u = resetByte a
  · simpa [write, hu] using wf_erase h a
  · simpa [write, hu] using wf_insert (wf_erase h a) (fun c hc => (mem_erase.1 hc).2) ha hu

/-- A run of writes inside memory keeps the canonical form. -/
theorem wf_writeList {m : Memory} (h : m.wf) {a : Nat} {us : List Byte} (ha : a + us.length ≤ Config.memSize) :
    (m.writeList a us).wf := by
  induction us generalizing m a with
  | nil => simpa [writeList] using h
  | cons u us ih =>
    rw [List.length_cons] at ha
    exact ih (wf_write h (by omega) u) (by omega)

end Memory

/-- Above the font an unlisted address reads 0 (R61). -/
theorem resetByte_above_font {a : Nat} (h : 0x50 ≤ a) : Memory.resetByte a = 0 := by
  have : ¬a < 80 := by omega
  simp [Memory.resetByte, this]

/-- In the font an unlisted address reads the default font (R61). -/
theorem resetByte_font (k : Fin 80) : Memory.resetByte k.val = Config.defaultFont.get k := by
  simp [Memory.resetByte, Vector.get_eq_getElem]

theorem memByte_storeBytes (s : State) (a : Nat) (us : List Byte) (c : Nat) :
    (s.storeBytes a us).memByte c = if h : a ≤ c ∧ c < a + us.length then us[c - a] else s.memByte c :=
  Memory.read_writeList s.mem a us c

@[simp] theorem memBytes_length (s : State) (a len : Nat) : (s.memBytes a len).length = len := by simp [State.memBytes]

/-- The byte of memory after `construct`, for any FONT (R53, R261). -/
theorem read_fontMemory (p : Params) (a : Nat) : (fontMemory p).read a = if h : a < 80 then p.font[a] else 0 := by
  rw [fontMemory, Memory.read_writeList]
  by_cases h : a < 80
  · simp [Config.fontBase, h]
  · have : ¬(Config.fontBase ≤ a ∧ a < Config.fontBase + p.font.toList.length) := by simp [Config.fontBase]; omega
    rw [dif_neg this, dif_neg h]
    exact resetByte_above_font (by omega)

theorem wf_fontMemory (p : Params) : (fontMemory p).wf :=
  Memory.wf_writeList Memory.wf_nil (by simp [Config.fontBase, Config.memSize])

/-! The bounds check (R66). -/

theorem rangeFault_none {base len : Nat} (h : len = 0 ∨ base + len ≤ 4096) : rangeFault base len = none := by
  have : ¬(len ≠ 0 ∧ base + len > Config.memSize) := by simp only [Config.memSize]; omega
  simp [rangeFault, this]

theorem rangeFault_some {base len : Nat} (h0 : len ≠ 0) (h : base + len > 4096) :
    rangeFault base len = some (BitVec.ofNat 16 (max base 4096)) := by
  have h' : len ≠ 0 ∧ base + len > Config.memSize := ⟨h0, h⟩
  rw [rangeFault, if_pos h']; rfl

/-- All a bounds-checked instruction can do: its effect, the range inside memory, or the fault and nothing else. -/
theorem guardRange_cases (s : State) (c : Cause) (len : Nat) (e : State) :
    ((len = 0 ∨ s.i.toNat + len ≤ 4096) ∧ s.guardRange c len e = e) ∨
    (len ≠ 0 ∧ s.i.toNat + len > 4096 ∧
      s.guardRange c len e = s.raiseExec c (BitVec.ofNat 16 (max s.i.toNat 4096))) := by
  by_cases h : len = 0 ∨ s.i.toNat + len ≤ 4096
  · exact .inl ⟨h, by simp [State.guardRange, rangeFault_none h]⟩
  · push Not at h
    exact .inr ⟨h.1, h.2, by simp [State.guardRange, rangeFault_some h.1 h.2]⟩

theorem guardRange_inside {s : State} {len : Nat} (c : Cause) (e : State) (h : len = 0 ∨ s.i.toNat + len ≤ 4096) :
    s.guardRange c len e = e := by simp [State.guardRange, rangeFault_none h]

theorem guardRange_outside {s : State} {len : Nat} (c : Cause) (e : State) (h0 : len ≠ 0) (h : s.i.toNat + len > 4096) :
    s.guardRange c len e = s.raiseExec c (BitVec.ofNat 16 (max s.i.toNat 4096)) := by
  simp [State.guardRange, rangeFault_some h0 h]

end Sys2Proof.Machine
end

