-- ==== Sys2Proof/Laws/State.lean ====
section
/-! SUPPORT. What each named update of State does to each field: one lemma per field and update, so that no proof unfolds a
record update. -/

namespace Sys2Proof.Machine

@[simp] theorem setV_mem (s : State) (x : RegIdx) (b : Byte) : (s.setV x b).mem = s.mem := rfl
@[simp] theorem setV_v (s : State) (x : RegIdx) (b : Byte) : (s.setV x b).v = s.v.set x.val b x.isLt := rfl
@[simp] theorem setV_i (s : State) (x : RegIdx) (b : Byte) : (s.setV x b).i = s.i := rfl
@[simp] theorem setV_pc (s : State) (x : RegIdx) (b : Byte) : (s.setV x b).pc = s.pc := rfl
@[simp] theorem setV_stack (s : State) (x : RegIdx) (b : Byte) : (s.setV x b).stack = s.stack := rfl
@[simp] theorem setV_sp (s : State) (x : RegIdx) (b : Byte) : (s.setV x b).sp = s.sp := rfl
@[simp] theorem setV_dt (s : State) (x : RegIdx) (b : Byte) : (s.setV x b).dt = s.dt := rfl
@[simp] theorem setV_st (s : State) (x : RegIdx) (b : Byte) : (s.setV x b).st = s.st := rfl
@[simp] theorem setV_fb (s : State) (x : RegIdx) (b : Byte) : (s.setV x b).fb = s.fb := rfl
@[simp] theorem setV_keys (s : State) (x : RegIdx) (b : Byte) : (s.setV x b).keys = s.keys := rfl
@[simp] theorem setV_run (s : State) (x : RegIdx) (b : Byte) : (s.setV x b).run = s.run := rfl
@[simp] theorem setV_fault (s : State) (x : RegIdx) (b : Byte) : (s.setV x b).fault = s.fault := rfl
@[simp] theorem setV_params (s : State) (x : RegIdx) (b : Byte) : (s.setV x b).params = s.params := rfl
@[simp] theorem setV_env (s : State) (x : RegIdx) (b : Byte) : (s.setV x b).env = s.env := rfl

@[simp] theorem setPc_mem (s : State) (a : Word16) : (s.setPc a).mem = s.mem := rfl
@[simp] theorem setPc_v (s : State) (a : Word16) : (s.setPc a).v = s.v := rfl
@[simp] theorem setPc_i (s : State) (a : Word16) : (s.setPc a).i = s.i := rfl
@[simp] theorem setPc_pc (s : State) (a : Word16) : (s.setPc a).pc = a := rfl
@[simp] theorem setPc_stack (s : State) (a : Word16) : (s.setPc a).stack = s.stack := rfl
@[simp] theorem setPc_sp (s : State) (a : Word16) : (s.setPc a).sp = s.sp := rfl
@[simp] theorem setPc_dt (s : State) (a : Word16) : (s.setPc a).dt = s.dt := rfl
@[simp] theorem setPc_st (s : State) (a : Word16) : (s.setPc a).st = s.st := rfl
@[simp] theorem setPc_fb (s : State) (a : Word16) : (s.setPc a).fb = s.fb := rfl
@[simp] theorem setPc_keys (s : State) (a : Word16) : (s.setPc a).keys = s.keys := rfl
@[simp] theorem setPc_run (s : State) (a : Word16) : (s.setPc a).run = s.run := rfl
@[simp] theorem setPc_fault (s : State) (a : Word16) : (s.setPc a).fault = s.fault := rfl
@[simp] theorem setPc_params (s : State) (a : Word16) : (s.setPc a).params = s.params := rfl
@[simp] theorem setPc_env (s : State) (a : Word16) : (s.setPc a).env = s.env := rfl

@[simp] theorem setI_mem (s : State) (a : Word16) : (s.setI a).mem = s.mem := rfl
@[simp] theorem setI_v (s : State) (a : Word16) : (s.setI a).v = s.v := rfl
@[simp] theorem setI_i (s : State) (a : Word16) : (s.setI a).i = a := rfl
@[simp] theorem setI_pc (s : State) (a : Word16) : (s.setI a).pc = s.pc := rfl
@[simp] theorem setI_stack (s : State) (a : Word16) : (s.setI a).stack = s.stack := rfl
@[simp] theorem setI_sp (s : State) (a : Word16) : (s.setI a).sp = s.sp := rfl
@[simp] theorem setI_dt (s : State) (a : Word16) : (s.setI a).dt = s.dt := rfl
@[simp] theorem setI_st (s : State) (a : Word16) : (s.setI a).st = s.st := rfl
@[simp] theorem setI_fb (s : State) (a : Word16) : (s.setI a).fb = s.fb := rfl
@[simp] theorem setI_keys (s : State) (a : Word16) : (s.setI a).keys = s.keys := rfl
@[simp] theorem setI_run (s : State) (a : Word16) : (s.setI a).run = s.run := rfl
@[simp] theorem setI_fault (s : State) (a : Word16) : (s.setI a).fault = s.fault := rfl
@[simp] theorem setI_params (s : State) (a : Word16) : (s.setI a).params = s.params := rfl
@[simp] theorem setI_env (s : State) (a : Word16) : (s.setI a).env = s.env := rfl

@[simp] theorem push_mem (s : State) (a : Word16) : (s.push a).mem = s.mem := rfl
@[simp] theorem push_v (s : State) (a : Word16) : (s.push a).v = s.v := rfl
@[simp] theorem push_i (s : State) (a : Word16) : (s.push a).i = s.i := rfl
@[simp] theorem push_pc (s : State) (a : Word16) : (s.push a).pc = s.pc := rfl
@[simp] theorem push_stack (s : State) (a : Word16) : (s.push a).stack = s.stack.set (s.sp + 1).val a (s.sp + 1).isLt := rfl
@[simp] theorem push_sp (s : State) (a : Word16) : (s.push a).sp = s.sp + 1 := rfl
@[simp] theorem push_dt (s : State) (a : Word16) : (s.push a).dt = s.dt := rfl
@[simp] theorem push_st (s : State) (a : Word16) : (s.push a).st = s.st := rfl
@[simp] theorem push_fb (s : State) (a : Word16) : (s.push a).fb = s.fb := rfl
@[simp] theorem push_keys (s : State) (a : Word16) : (s.push a).keys = s.keys := rfl
@[simp] theorem push_run (s : State) (a : Word16) : (s.push a).run = s.run := rfl
@[simp] theorem push_fault (s : State) (a : Word16) : (s.push a).fault = s.fault := rfl
@[simp] theorem push_params (s : State) (a : Word16) : (s.push a).params = s.params := rfl
@[simp] theorem push_env (s : State) (a : Word16) : (s.push a).env = s.env := rfl

@[simp] theorem popToPc_mem (s : State) : (s.popToPc).mem = s.mem := rfl
@[simp] theorem popToPc_v (s : State) : (s.popToPc).v = s.v := rfl
@[simp] theorem popToPc_i (s : State) : (s.popToPc).i = s.i := rfl
@[simp] theorem popToPc_pc (s : State) : (s.popToPc).pc = s.getS s.sp := rfl
@[simp] theorem popToPc_stack (s : State) : (s.popToPc).stack = s.stack := rfl
@[simp] theorem popToPc_sp (s : State) : (s.popToPc).sp = s.sp - 1 := rfl
@[simp] theorem popToPc_dt (s : State) : (s.popToPc).dt = s.dt := rfl
@[simp] theorem popToPc_st (s : State) : (s.popToPc).st = s.st := rfl
@[simp] theorem popToPc_fb (s : State) : (s.popToPc).fb = s.fb := rfl
@[simp] theorem popToPc_keys (s : State) : (s.popToPc).keys = s.keys := rfl
@[simp] theorem popToPc_run (s : State) : (s.popToPc).run = s.run := rfl
@[simp] theorem popToPc_fault (s : State) : (s.popToPc).fault = s.fault := rfl
@[simp] theorem popToPc_params (s : State) : (s.popToPc).params = s.params := rfl
@[simp] theorem popToPc_env (s : State) : (s.popToPc).env = s.env := rfl

@[simp] theorem storeBytes_mem (s : State) (a : Nat) (us : List Byte) : (s.storeBytes a us).mem = s.mem.writeList a us := rfl
@[simp] theorem storeBytes_v (s : State) (a : Nat) (us : List Byte) : (s.storeBytes a us).v = s.v := rfl
@[simp] theorem storeBytes_i (s : State) (a : Nat) (us : List Byte) : (s.storeBytes a us).i = s.i := rfl
@[simp] theorem storeBytes_pc (s : State) (a : Nat) (us : List Byte) : (s.storeBytes a us).pc = s.pc := rfl
@[simp] theorem storeBytes_stack (s : State) (a : Nat) (us : List Byte) : (s.storeBytes a us).stack = s.stack := rfl
@[simp] theorem storeBytes_sp (s : State) (a : Nat) (us : List Byte) : (s.storeBytes a us).sp = s.sp := rfl
@[simp] theorem storeBytes_dt (s : State) (a : Nat) (us : List Byte) : (s.storeBytes a us).dt = s.dt := rfl
@[simp] theorem storeBytes_st (s : State) (a : Nat) (us : List Byte) : (s.storeBytes a us).st = s.st := rfl
@[simp] theorem storeBytes_fb (s : State) (a : Nat) (us : List Byte) : (s.storeBytes a us).fb = s.fb := rfl
@[simp] theorem storeBytes_keys (s : State) (a : Nat) (us : List Byte) : (s.storeBytes a us).keys = s.keys := rfl
@[simp] theorem storeBytes_run (s : State) (a : Nat) (us : List Byte) : (s.storeBytes a us).run = s.run := rfl
@[simp] theorem storeBytes_fault (s : State) (a : Nat) (us : List Byte) : (s.storeBytes a us).fault = s.fault := rfl
@[simp] theorem storeBytes_params (s : State) (a : Nat) (us : List Byte) : (s.storeBytes a us).params = s.params := rfl
@[simp] theorem storeBytes_env (s : State) (a : Nat) (us : List Byte) : (s.storeBytes a us).env = s.env := rfl

@[simp] theorem raiseFault_mem (s : State) (c : Cause) (p a : Word16) : (s.raiseFault c p a).mem = s.mem := rfl
@[simp] theorem raiseFault_v (s : State) (c : Cause) (p a : Word16) : (s.raiseFault c p a).v = s.v := rfl
@[simp] theorem raiseFault_i (s : State) (c : Cause) (p a : Word16) : (s.raiseFault c p a).i = s.i := rfl
@[simp] theorem raiseFault_pc (s : State) (c : Cause) (p a : Word16) : (s.raiseFault c p a).pc = s.pc := rfl
@[simp] theorem raiseFault_stack (s : State) (c : Cause) (p a : Word16) : (s.raiseFault c p a).stack = s.stack := rfl
@[simp] theorem raiseFault_sp (s : State) (c : Cause) (p a : Word16) : (s.raiseFault c p a).sp = s.sp := rfl
@[simp] theorem raiseFault_dt (s : State) (c : Cause) (p a : Word16) : (s.raiseFault c p a).dt = s.dt := rfl
@[simp] theorem raiseFault_st (s : State) (c : Cause) (p a : Word16) : (s.raiseFault c p a).st = s.st := rfl
@[simp] theorem raiseFault_fb (s : State) (c : Cause) (p a : Word16) : (s.raiseFault c p a).fb = s.fb := rfl
@[simp] theorem raiseFault_keys (s : State) (c : Cause) (p a : Word16) : (s.raiseFault c p a).keys = s.keys := rfl
@[simp] theorem raiseFault_run (s : State) (c : Cause) (p a : Word16) : (s.raiseFault c p a).run = .faulted := rfl
@[simp] theorem raiseFault_fault (s : State) (c : Cause) (p a : Word16) : (s.raiseFault c p a).fault = ⟨c, p, a⟩ := rfl
@[simp] theorem raiseFault_params (s : State) (c : Cause) (p a : Word16) : (s.raiseFault c p a).params = s.params := rfl
@[simp] theorem raiseFault_env (s : State) (c : Cause) (p a : Word16) : (s.raiseFault c p a).env = s.env := rfl

@[simp] theorem raiseExec_mem (s : State) (c : Cause) (a : Word16) : (s.raiseExec c a).mem = s.mem := rfl
@[simp] theorem raiseExec_v (s : State) (c : Cause) (a : Word16) : (s.raiseExec c a).v = s.v := rfl
@[simp] theorem raiseExec_i (s : State) (c : Cause) (a : Word16) : (s.raiseExec c a).i = s.i := rfl
@[simp] theorem raiseExec_pc (s : State) (c : Cause) (a : Word16) : (s.raiseExec c a).pc = s.pc := rfl
@[simp] theorem raiseExec_stack (s : State) (c : Cause) (a : Word16) : (s.raiseExec c a).stack = s.stack := rfl
@[simp] theorem raiseExec_sp (s : State) (c : Cause) (a : Word16) : (s.raiseExec c a).sp = s.sp := rfl
@[simp] theorem raiseExec_dt (s : State) (c : Cause) (a : Word16) : (s.raiseExec c a).dt = s.dt := rfl
@[simp] theorem raiseExec_st (s : State) (c : Cause) (a : Word16) : (s.raiseExec c a).st = s.st := rfl
@[simp] theorem raiseExec_fb (s : State) (c : Cause) (a : Word16) : (s.raiseExec c a).fb = s.fb := rfl
@[simp] theorem raiseExec_keys (s : State) (c : Cause) (a : Word16) : (s.raiseExec c a).keys = s.keys := rfl
@[simp] theorem raiseExec_run (s : State) (c : Cause) (a : Word16) : (s.raiseExec c a).run = .faulted := rfl
@[simp] theorem raiseExec_fault (s : State) (c : Cause) (a : Word16) : (s.raiseExec c a).fault = ⟨c, s.pc - 2, a⟩ := rfl
@[simp] theorem raiseExec_params (s : State) (c : Cause) (a : Word16) : (s.raiseExec c a).params = s.params := rfl
@[simp] theorem raiseExec_env (s : State) (c : Cause) (a : Word16) : (s.raiseExec c a).env = s.env := rfl

@[simp] theorem loadTransfer_mem (s : State) (x : RegIdx) : (s.loadTransfer x).mem = s.mem := by simp only [State.loadTransfer]
@[simp] theorem loadTransfer_v (s : State) (x : RegIdx) : (s.loadTransfer x).v = s.transferredRegs x := by simp only [State.loadTransfer]
@[simp] theorem loadTransfer_i (s : State) (x : RegIdx) : (s.loadTransfer x).i = s.i := by simp only [State.loadTransfer]
@[simp] theorem loadTransfer_pc (s : State) (x : RegIdx) : (s.loadTransfer x).pc = s.pc := by simp only [State.loadTransfer]
@[simp] theorem loadTransfer_stack (s : State) (x : RegIdx) : (s.loadTransfer x).stack = s.stack := by simp only [State.loadTransfer]
@[simp] theorem loadTransfer_sp (s : State) (x : RegIdx) : (s.loadTransfer x).sp = s.sp := by simp only [State.loadTransfer]
@[simp] theorem loadTransfer_dt (s : State) (x : RegIdx) : (s.loadTransfer x).dt = s.dt := by simp only [State.loadTransfer]
@[simp] theorem loadTransfer_st (s : State) (x : RegIdx) : (s.loadTransfer x).st = s.st := by simp only [State.loadTransfer]
@[simp] theorem loadTransfer_fb (s : State) (x : RegIdx) : (s.loadTransfer x).fb = s.fb := by simp only [State.loadTransfer]
@[simp] theorem loadTransfer_keys (s : State) (x : RegIdx) : (s.loadTransfer x).keys = s.keys := by simp only [State.loadTransfer]
@[simp] theorem loadTransfer_run (s : State) (x : RegIdx) : (s.loadTransfer x).run = s.run := by simp only [State.loadTransfer]
@[simp] theorem loadTransfer_fault (s : State) (x : RegIdx) : (s.loadTransfer x).fault = s.fault := by simp only [State.loadTransfer]
@[simp] theorem loadTransfer_params (s : State) (x : RegIdx) : (s.loadTransfer x).params = s.params := by simp only [State.loadTransfer]
@[simp] theorem loadTransfer_env (s : State) (x : RegIdx) : (s.loadTransfer x).env = s.env := by simp only [State.loadTransfer]

@[simp] theorem answer_mem (s : State) (o : Output) : (s.answer o).mem = s.mem := rfl
@[simp] theorem answer_v (s : State) (o : Output) : (s.answer o).v = s.v := rfl
@[simp] theorem answer_i (s : State) (o : Output) : (s.answer o).i = s.i := rfl
@[simp] theorem answer_pc (s : State) (o : Output) : (s.answer o).pc = s.pc := rfl
@[simp] theorem answer_stack (s : State) (o : Output) : (s.answer o).stack = s.stack := rfl
@[simp] theorem answer_sp (s : State) (o : Output) : (s.answer o).sp = s.sp := rfl
@[simp] theorem answer_dt (s : State) (o : Output) : (s.answer o).dt = s.dt := rfl
@[simp] theorem answer_st (s : State) (o : Output) : (s.answer o).st = s.st := rfl
@[simp] theorem answer_fb (s : State) (o : Output) : (s.answer o).fb = s.fb := rfl
@[simp] theorem answer_keys (s : State) (o : Output) : (s.answer o).keys = s.keys := rfl
@[simp] theorem answer_run (s : State) (o : Output) : (s.answer o).run = s.run := rfl
@[simp] theorem answer_fault (s : State) (o : Output) : (s.answer o).fault = s.fault := rfl
@[simp] theorem answer_params (s : State) (o : Output) : (s.answer o).params = s.params := rfl
@[simp] theorem answer_env (s : State) (o : Output) : (s.answer o).env = { s.env with output := o } := rfl

@[simp] theorem beginTick_mem (s : State) (n : TickInputs) : (s.beginTick n).mem = s.mem := rfl
@[simp] theorem beginTick_v (s : State) (n : TickInputs) : (s.beginTick n).v = s.v := rfl
@[simp] theorem beginTick_i (s : State) (n : TickInputs) : (s.beginTick n).i = s.i := rfl
@[simp] theorem beginTick_pc (s : State) (n : TickInputs) : (s.beginTick n).pc = s.pc := rfl
@[simp] theorem beginTick_stack (s : State) (n : TickInputs) : (s.beginTick n).stack = s.stack := rfl
@[simp] theorem beginTick_sp (s : State) (n : TickInputs) : (s.beginTick n).sp = s.sp := rfl
@[simp] theorem beginTick_dt (s : State) (n : TickInputs) : (s.beginTick n).dt = s.dt := rfl
@[simp] theorem beginTick_st (s : State) (n : TickInputs) : (s.beginTick n).st = s.st := rfl
@[simp] theorem beginTick_fb (s : State) (n : TickInputs) : (s.beginTick n).fb = s.fb := rfl
@[simp] theorem beginTick_keys (s : State) (n : TickInputs) : (s.beginTick n).keys = s.keys := rfl
@[simp] theorem beginTick_run (s : State) (n : TickInputs) : (s.beginTick n).run = s.run := rfl
@[simp] theorem beginTick_fault (s : State) (n : TickInputs) : (s.beginTick n).fault = s.fault := rfl
@[simp] theorem beginTick_params (s : State) (n : TickInputs) : (s.beginTick n).params = s.params := rfl
@[simp] theorem beginTick_env (s : State) (n : TickInputs) : (s.beginTick n).env = { s.env with inputs := n, output := .silent } := rfl

@[simp] theorem render_mem (s : State) : (s.render).mem = s.mem := rfl
@[simp] theorem render_v (s : State) : (s.render).v = s.v := rfl
@[simp] theorem render_i (s : State) : (s.render).i = s.i := rfl
@[simp] theorem render_pc (s : State) : (s.render).pc = s.pc := rfl
@[simp] theorem render_stack (s : State) : (s.render).stack = s.stack := rfl
@[simp] theorem render_sp (s : State) : (s.render).sp = s.sp := rfl
@[simp] theorem render_dt (s : State) : (s.render).dt = s.dt := rfl
@[simp] theorem render_st (s : State) : (s.render).st = s.st := rfl
@[simp] theorem render_fb (s : State) : (s.render).fb = s.fb := rfl
@[simp] theorem render_keys (s : State) : (s.render).keys = s.keys := rfl
@[simp] theorem render_run (s : State) : (s.render).run = s.run := rfl
@[simp] theorem render_fault (s : State) : (s.render).fault = s.fault := rfl
@[simp] theorem render_params (s : State) : (s.render).params = s.params := rfl
@[simp] theorem render_env (s : State) : (s.render).env = { s.env with
      output := .render (renderCalls s.fb s.env.inputs.targetWidth s.env.inputs.targetHeight) } := rfl

@[simp] theorem advance_mem (s : State) : (s.advance).mem = s.mem := rfl
@[simp] theorem advance_v (s : State) : (s.advance).v = s.v := rfl
@[simp] theorem advance_i (s : State) : (s.advance).i = s.i := rfl
@[simp] theorem advance_pc (s : State) : (s.advance).pc = s.pc + 2 := rfl
@[simp] theorem advance_stack (s : State) : (s.advance).stack = s.stack := rfl
@[simp] theorem advance_sp (s : State) : (s.advance).sp = s.sp := rfl
@[simp] theorem advance_dt (s : State) : (s.advance).dt = s.dt := rfl
@[simp] theorem advance_st (s : State) : (s.advance).st = s.st := rfl
@[simp] theorem advance_fb (s : State) : (s.advance).fb = s.fb := rfl
@[simp] theorem advance_keys (s : State) : (s.advance).keys = s.keys := rfl
@[simp] theorem advance_run (s : State) : (s.advance).run = s.run := rfl
@[simp] theorem advance_fault (s : State) : (s.advance).fault = s.fault := rfl
@[simp] theorem advance_params (s : State) : (s.advance).params = s.params := rfl
@[simp] theorem advance_env (s : State) : (s.advance).env = s.env := rfl

/-! Register reads through the accessors. -/

theorem getV_setV (s : State) (x y : RegIdx) (b : Byte) : (s.setV x b).getV y = if y = x then b else s.getV y := by
  by_cases h : y = x
  · subst h; simp [State.setV, State.getV, Vector.get_eq_getElem]
  · have h' : x.val ≠ y.val := fun e => h (Fin.ext e.symm)
    simp [State.setV, State.getV, Vector.get_eq_getElem, h, Vector.getElem_set_ne _ _ h']

@[simp] theorem getV_setV_same (s : State) (x : RegIdx) (b : Byte) : (s.setV x b).getV x = b := by simp [getV_setV]

theorem getV_setV_ne (s : State) {x y : RegIdx} (b : Byte) (h : y ≠ x) : (s.setV x b).getV y = s.getV y := by
  simp [getV_setV, h]

theorem getV_congr {s t : State} (h : t.v = s.v) (x : RegIdx) : t.getV x = s.getV x := by simp [State.getV, h]

theorem getS_congr {s t : State} (h : t.stack = s.stack) (j : Fin 16) : t.getS j = s.getS j := by simp [State.getS, h]

theorem memByte_congr {s t : State} (h : t.mem = s.mem) (a : Nat) : t.memByte a = s.memByte a := by
  simp [State.memByte, h]

/-- `push` writes the entry `sp + 1` and no other. -/
theorem getS_push (s : State) (a : Word16) (j : Fin 16) : (s.push a).getS j = if j = s.sp + 1 then a else s.getS j := by
  by_cases h : j = s.sp + 1
  · subst h; simp [State.getS, Vector.get_eq_getElem]
  · have h' : (s.sp + 1).val ≠ j.val := fun e => h (Fin.ext e.symm)
    simp [State.getS, Vector.get_eq_getElem, h, Vector.getElem_set_ne _ _ h']

/-- The bulk load writes `V0..Vx` from memory and no other register. -/
theorem getV_loadTransfer (s : State) (x j : RegIdx) :
    (s.loadTransfer x).getV j = if j ≤ x then s.memByte (s.i.toNat + j.val) else s.getV j := by
  simp [State.transferredRegs, State.getV, Vector.get_eq_getElem]

end Sys2Proof.Machine
end

