-- ==== Sys2Proof/Laws/Ops.lean ====
section
/-! SUPPORT. What the remaining shared operations do: the key queue, the flags, the timers, the operands; and what a frame is
made of. -/

namespace Sys2Proof.Machine

/-! The key queue (R192). -/

theorem keyPop_nil {s : State} (h : s.keys = []) : s.keyPop = none := by simp [State.keyPop, h]

theorem keyPop_concat {s : State} {ks : List KeyIdx} {k : KeyIdx} (h : s.keys = ks ++ [k]) :
    s.keyPop = some (k, { s with keys := ks }) := by simp [State.keyPop, h]

/-- All `KeyPop` can do. -/
theorem keyPop_cases (s : State) :
    (s.keys = [] ∧ s.keyPop = none) ∨
      ∃ ks k, s.keys = ks ++ [k] ∧ s.keyPop = some (k, { s with keys := ks }) := by
  rcases List.eq_nil_or_concat s.keys with h | ⟨ks, k, h⟩
  · exact .inl ⟨h, keyPop_nil h⟩
  · rw [List.concat_eq_append] at h
    exact .inr ⟨ks, k, h, keyPop_concat h⟩

theorem keyByte_toNat (k : KeyIdx) : (keyByte k).toNat = k.val := by
  have := k.isLt
  simp [keyByte]; omega

theorem keyByte_eq_iff (k : KeyIdx) (b : Byte) : keyByte k = b ↔ k.val = b.toNat := by
  rw [← keyByte_toNat]
  exact ⟨fun h => by rw [h], BitVec.eq_of_toNat_eq⟩

/-! Skips (R129). -/

theorem skipIf_eq (s : State) (c : Bool) : s.skipIf c = { s with pc := if c then s.pc + 2 else s.pc } := by
  cases c <;> rfl

/-! Result and flag (R33). -/

theorem getV_writeWithFlag (s : State) (x j : RegIdx) (r : Byte × Bool) :
    (s.writeWithFlag x r).getV j = if j = VF then flagByte r.2 else if j = x then r.1 else s.getV j := by
  rw [State.writeWithFlag, getV_setV, getV_setV]

theorem writeWithFlag_eq (s : State) (x : RegIdx) (r : Byte × Bool) :
    s.writeWithFlag x r = { s with v := (s.writeWithFlag x r).v } := rfl

theorem getV_writeLogic (s : State) (x j : RegIdx) (r : Byte) :
    (s.writeLogic x r).getV j =
      if s.params.logicResetsVf = true ∧ j = VF then 0 else if j = x then r else s.getV j := by
  by_cases h : s.params.logicResetsVf
  · simp [State.writeLogic, h, getV_setV]
  · simp [State.writeLogic, h, getV_setV]

theorem writeLogic_eq (s : State) (x : RegIdx) (r : Byte) :
    s.writeLogic x r = { s with v := (s.writeLogic x r).v } := by
  cases h : s.params.logicResetsVf <;> simp [State.writeLogic, h, State.setV]

/-- A bulk transfer touches `I` at most, beside what it moves (R218). -/
theorem afterTransfer_eq (s : State) (x : RegIdx) :
    s.afterTransfer x = { s with i := if s.params.ldiIncrementsI then s.i + BitVec.ofNat 16 (transferCount x) else s.i } := by
  cases h : s.params.ldiIncrementsI <;> simp [State.afterTransfer, h, State.setI]

/-! Timers (R245). -/

theorem decayTimer_toNat (t : Byte) : (decayTimer t).toNat = t.toNat - 1 := by
  by_cases h : t = 0
  · subst h; rfl
  · have : t.toNat ≠ 0 := fun e => h (BitVec.eq_of_toNat_eq (by simpa using e))
    have := t.isLt
    have h1 : (1 : Byte).toNat = 1 := rfl
    rw [decayTimer, if_neg h, BitVec.toNat_sub, h1]; omega

/-- Steps 2 and 3 of a tick: the output, the timers, and nothing else. -/
theorem finishTick_eq (s : State) :
    s.finishTick =
      { s with
        dt := if s.env.inputs.timerDue then decayTimer s.dt else s.dt
        st := if s.env.inputs.timerDue then decayTimer s.st else s.st
        env := s.render.env } := rfl

/-! Operands. -/

theorem transferBytes_length (s : State) (x : RegIdx) : (s.transferBytes x).length = x.val + 1 := by
  simp [State.transferBytes, transferCount]

theorem transferBytes_getElem (s : State) (x j : RegIdx) (h : j ≤ x) :
    (s.transferBytes x)[j.val]'(by rw [transferBytes_length]; exact Nat.lt_succ_of_le h) = s.getV j := by
  simp [State.transferBytes, State.getV, Vector.get_eq_getElem]

theorem bcdDigits_length (v : Byte) : (bcdDigits v).length = 3 := rfl

theorem addr16_toNat (nnn : Addr12) : (addr16 nnn).toNat = nnn.toNat := by
  have := nnn.isLt
  simp [addr16]; omega

theorem zext16_toNat (b : Byte) : (zext16 b).toNat = b.toNat := by
  have := b.isLt
  simp [zext16]; omega

theorem jumpOffsetTarget_toNat (s : State) (nnn : Addr12) (x : RegIdx) :
    (s.jumpOffsetTarget nnn x).toNat = nnn.toNat + (s.jumpOffsetOperand x).toNat := by
  have := nnn.isLt
  have := (s.jumpOffsetOperand x).isLt
  rw [State.jumpOffsetTarget, BitVec.toNat_add, addr16_toNat, zext16_toNat]; omega

theorem digitAddress_toNat (v : Byte) : (digitAddress v).toNat = 5 * v.toNat := by
  have := v.isLt
  simp [digitAddress, Config.fontBase, Config.glyphBytes]; omega

end Sys2Proof.Machine
end

