-- ==== Sys2Proof/Laws/Cycle.lean ====
section
/-! SUPPORT. What a step can do: the transaction it performs, and the cases of a tick. -/

namespace Sys2Proof.Machine

/-- The transaction a step performs is performed in a state that differs from the step's in the environment's side only. -/
theorem nextAction_state (s : State) : s.nextAction.2 = { s with env := s.nextAction.2.env } := by
  cases h : s.env.host <;> simp [State.nextAction, h]

theorem nextAction_cons {s : State} {a : HostAction} {rest : List HostAction} (h : s.env.host = a :: rest) :
    s.nextAction = (a, { s with env := { s.env with host := rest } }) := by simp [State.nextAction, h]

/-- With no script left the step is a tick. -/
theorem nextAction_nil {s : State} (h : s.env.host = []) :
    s.nextAction = (.tick (Config.freeInputs s.env.draws), { s with env := { s.env with draws := s.env.draws + 1 } }) := by
  simp [State.nextAction, h]

theorem step_eq (s : State) : step s = s.nextAction.2.transact s.nextAction.1 := rfl

theorem step_cons {s : State} {a : HostAction} {rest : List HostAction} (h : s.env.host = a :: rest) :
    step s = State.transact { s with env := { s.env with host := rest } } a := by simp [step_eq, nextAction_cons h]

theorem step_tick {s : State} {n : TickInputs} (h : s.nextAction.1 = .tick n) : step s = s.nextAction.2.tick n := by
  rw [step_eq, h]; rfl

/-- The state in which a tick's instruction step begins. -/
theorem beginTick_nextAction (s : State) (n : TickInputs) :
    s.nextAction.2.beginTick n = { s with env := (s.nextAction.2.beginTick n).env } := by
  rw [nextAction_state s]; rfl

/-- Either the step's transaction is a tick, or the script begins with it. -/
theorem nextAction_not_tick {s : State} {a : HostAction} (h : s.nextAction.1 = a) (ha : a.isTick = false) :
    ∃ rest, s.env.host = a :: rest := by
  cases hs : s.env.host with
  | nil => rw [nextAction_nil hs] at h; subst h; simp [HostAction.isTick] at ha
  | cons b rest => rw [nextAction_cons hs] at h; exact ⟨rest, by rw [← h]⟩

/-! A tick, by run state (R100). -/

theorem tick_faulted {s : State} (n : TickInputs) (h : s.run = .faulted) : s.tick n = .next (s.beginTick n) := by
  simp [State.tick, h]

theorem tick_awaiting {s : State} (n : TickInputs) {x : RegIdx} (h : s.run = .awaitingKey x) :
    s.tick n = .next ((s.beginTick n).awaitKey x).finishTick := by simp [State.tick, h]

theorem tick_running {s : State} (n : TickInputs) (h : s.run = .running) :
    s.tick n = afterInstruction (s.beginTick n).instructionStep := by simp [State.tick, h]

@[simp] theorem afterInstruction_next (t : State) : afterInstruction (.next t) = .next t.endTick := rfl

/-- The instruction step of a tick that can fetch. -/
theorem instructionStep_fetch {s : State} (h : s.pc.toNat + 1 < 4096) :
    s.instructionStep = s.advance.executeWord s.fetchWord := by
  have : s.canFetch = true := decide_eq_true h
  simp [State.instructionStep, this]

/-- The instruction step of a tick that cannot. -/
theorem instructionStep_fault {s : State} (h : ¬s.pc.toNat + 1 < 4096) : s.instructionStep = .next s.raiseFetch := by
  have : s.canFetch = false := decide_eq_false h
  simp [State.instructionStep, this]

theorem executeWord_instr {s : State} {w : Word16} {i : Instr} (h : decode s.params w = .instr i) :
    s.executeWord w = exec i s := by simp [State.executeWord, h]

theorem executeWord_failure {s : State} {w v : Word16} (h : decode s.params w = .decodeFailure v) :
    s.executeWord w = .next s := by simp [State.executeWord, h]

/-- The wait, by the key queue (R106, R107). -/
theorem awaitKey_nil {s : State} (x : RegIdx) (h : s.keys = []) : s.awaitKey x = s := by
  simp [State.awaitKey, keyPop_nil h]

theorem awaitKey_concat {s : State} (x : RegIdx) {ks : List KeyIdx} {k : KeyIdx} (h : s.keys = ks ++ [k]) :
    s.awaitKey x = { s.setV x (keyByte k) with keys := ks, run := .running } := by
  simp [State.awaitKey, keyPop_concat h, State.setV]

/-! The timers and the output of a tick that did not fault (R100, R245). -/

theorem finishTick_dt (s : State) :
    s.finishTick.dt.toNat = if s.env.inputs.timerDue then s.dt.toNat - 1 else s.dt.toNat := by
  rw [finishTick_eq]; dsimp only; split <;> simp [decayTimer_toNat]

theorem finishTick_st (s : State) :
    s.finishTick.st.toNat = if s.env.inputs.timerDue then s.st.toNat - 1 else s.st.toNat := by
  rw [finishTick_eq]; dsimp only; split <;> simp [decayTimer_toNat]

theorem finishTick_output (s : State) :
    s.finishTick.env.output =
      .render (renderCalls s.fb s.env.inputs.targetWidth s.env.inputs.targetHeight) := by rw [finishTick_eq]; rfl

/-! `load` (R264). -/

theorem load_overflow (s : State) {bytes : List Byte} (h : 0x200 + bytes.length > 4096) :
    s.load bytes = s.answer .loadOverflow := by
  rw [State.load, if_pos (by simp only [Config.progBase, Config.memSize]; omega)]

theorem load_ok (s : State) {bytes : List Byte} (h : 0x200 + bytes.length ≤ 4096) :
    s.load bytes = (s.storeBytes 0x200 bytes).answer .loadOk := by
  rw [State.load, if_neg (by simp only [Config.progBase, Config.memSize]; omega)]; rfl

end Sys2Proof.Machine
end

