-- ==== Sys2Proof/Laws/Decode.lean ====
section
/-! SUPPORT. The fields of a word as plain numbers, and the fields of an encoded word. -/

namespace Sys2Proof

theorem fieldClass_val (w : Word16) : (fieldClass w).val = w.toNat / 4096 := by
  have := w.isLt
  simp [fieldClass, Nat.shiftRight_eq_div_pow]; omega

theorem fieldX_val (w : Word16) : (fieldX w).val = w.toNat / 256 % 16 := by
  simp [fieldX, Nat.shiftRight_eq_div_pow]

theorem fieldY_val (w : Word16) : (fieldY w).val = w.toNat / 16 % 16 := by
  simp [fieldY, Nat.shiftRight_eq_div_pow]

theorem fieldN_val (w : Word16) : (fieldN w).val = w.toNat % 16 := by
  simp [fieldN]

theorem fieldKk_toNat (w : Word16) : (fieldKk w).toNat = w.toNat % 256 := by
  simp [fieldKk]

theorem fieldNnn_toNat (w : Word16) : (fieldNnn w).toNat = w.toNat % 4096 := by
  simp [fieldNnn]

theorem topNibble_val (nnn : Addr12) : (topNibble nnn).val = nnn.toNat / 256 := by
  have := nnn.isLt
  simp [topNibble, Nat.shiftRight_eq_div_pow]; omega

/-- Concatenation as a number, the first operand in the high bits (R12). -/
theorem toNat_append_eq {v w : Nat} (a : BitVec v) (b : BitVec w) : (a ++ b).toNat = a.toNat * 2 ^ w + b.toNat := by
  rw [BitVec.toNat_append, ← Nat.shiftLeft_add_eq_or_of_lt b.isLt, Nat.shiftLeft_eq]

theorem wordOfBytes_toNat (hi lo : Byte) : (wordOfBytes hi lo).toNat = hi.toNat * 256 + lo.toNat := toNat_append_eq hi lo

theorem encodeNnn_toNat (c : BitVec 4) (nnn : Addr12) : (encodeNnn c nnn).toNat = c.toNat * 4096 + nnn.toNat :=
  toNat_append_eq c nnn

theorem encodeXkk_toNat (c : BitVec 4) (x : RegIdx) (kk : Byte) :
    (encodeXkk c x kk).toNat = c.toNat * 4096 + x.val * 256 + kk.toNat := by
  have hx : (BitVec.ofFin (w := 4) x).toNat = x.val := rfl
  rw [encodeXkk, toNat_append_eq, toNat_append_eq, hx]; omega

theorem encodeXyn_toNat (c : BitVec 4) (x y n : Fin 16) :
    (encodeXyn c x y n).toNat = c.toNat * 4096 + x.val * 256 + y.val * 16 + n.val := by
  have hx : (BitVec.ofFin (w := 4) x).toNat = x.val := rfl
  have hy : (BitVec.ofFin (w := 4) y).toNat = y.val := rfl
  have hn : (BitVec.ofFin (w := 4) n).toNat = n.val := rfl
  rw [encodeXyn, toNat_append_eq, toNat_append_eq, toNat_append_eq, hx, hy, hn]; omega

/-- A decode failure carries the word (R84). -/
theorem decodeFailure_word {p : Params} {w v : Word16} (h : decode p w = .decodeFailure v) : v = w := by
  unfold decode at h
  split at h <;> (try simp only [decodeClass0, decodeClass8, decodeClassE, decodeClassF, decodeSkipReg] at h) <;>
    (repeat' split at h) <;> simp_all

end Sys2Proof
end

