-- ==== Sys2Proof/Laws/Frame.lean ====
section
/-! SUPPORT. The frame of each shared operation: what it leaves unchanged, in one lemma per operation. -/

namespace Sys2Proof.Machine

namespace Frame

theorem refl (m : Touched) (s : State) : Frame m s s :=
  ⟨fun _ _ => rfl, fun _ _ => rfl, fun _ _ => rfl, fun _ => rfl, fun _ => rfl, fun _ => rfl, fun _ => rfl, fun _ => rfl,
    fun _ => rfl, fun _ => rfl, fun _ => rfl, fun _ => rfl, fun _ => rfl, rfl⟩

/-- What `m` touches is touched by every wider `n`. -/
theorem mono {m n : Touched} {s t : State} (h : Frame m s t) (v : ∀ j ∈ m.v, j ∈ n.v) (stack : ∀ j ∈ m.stack, j ∈ n.stack)
    (mem : ∀ a, m.memBase ≤ a ∧ a < m.memBase + m.memLen → n.memBase ≤ a ∧ a < n.memBase + n.memLen)
    (i : m.i → n.i) (pc : m.pc → n.pc) (sp : m.sp → n.sp) (dt : m.dt → n.dt) (st : m.st → n.st) (fb : m.fb → n.fb)
    (keys : m.keys → n.keys) (run : m.run → n.run) (fault : m.fault → n.fault) (env : m.env → n.env) : Frame n s t := by
  have off : ∀ {a b : Bool}, (a = true → b = true) → b = false → a = false := by decide
  exact ⟨fun j hj => h.v j fun hm => hj (v j hm), fun j hj => h.stack j fun hm => hj (stack j hm),
    fun a ha => h.mem a fun hm => ha (mem a hm), fun e => h.i (off i e), fun e => h.pc (off pc e), fun e => h.sp (off sp e),
    fun e => h.dt (off dt e), fun e => h.st (off st e), fun e => h.fb (off fb e), fun e => h.keys (off keys e),
    fun e => h.run (off run e), fun e => h.fault (off fault e), fun e => h.env (off env e), h.params⟩

/-- Two operations one after the other touch no more than both do. -/
theorem trans {m : Touched} {s t u : State} (h : Frame m s t) (k : Frame m t u) : Frame m s u :=
  ⟨fun j hj => (k.v j hj).trans (h.v j hj), fun j hj => (k.stack j hj).trans (h.stack j hj),
    fun a ha => (k.mem a ha).trans (h.mem a ha), fun e => (k.i e).trans (h.i e), fun e => (k.pc e).trans (h.pc e),
    fun e => (k.sp e).trans (h.sp e), fun e => (k.dt e).trans (h.dt e), fun e => (k.st e).trans (h.st e),
    fun e => (k.fb e).trans (h.fb e), fun e => (k.keys e).trans (h.keys e), fun e => (k.run e).trans (h.run e),
    fun e => (k.fault e).trans (h.fault e), fun e => (k.env e).trans (h.env e), k.params.trans h.params⟩

end Frame

/-- What every record update of State leaves alone, from the fields that are equal by computation: a frame is decided field by
field. -/
theorem frame_of_fields {m : Touched} {s t : State} (v : ∀ j, j ∉ m.v → t.getV j = s.getV j)
    (stack : ∀ j, j ∉ m.stack → t.getS j = s.getS j)
    (mem : ∀ a, ¬(m.memBase ≤ a ∧ a < m.memBase + m.memLen) → t.memByte a = s.memByte a)
    (rest : t = { s with
      v := t.v, stack := t.stack, mem := t.mem
      i := if m.i then t.i else s.i
      pc := if m.pc then t.pc else s.pc
      sp := if m.sp then t.sp else s.sp
      dt := if m.dt then t.dt else s.dt
      st := if m.st then t.st else s.st
      fb := if m.fb then t.fb else s.fb
      keys := if m.keys then t.keys else s.keys
      run := if m.run then t.run else s.run
      fault := if m.fault then t.fault else s.fault
      env := if m.env then t.env else s.env }) : Frame m s t := by
  refine ⟨v, stack, mem, ?_, ?_, ?_, ?_, ?_, ?_, ?_, ?_, ?_, ?_, ?_⟩
  case refine_11 => rw [rest]
  all_goals intro e; rw [rest]; simp [e]

theorem frame_setV (s : State) (x : RegIdx) (b : Byte) : Frame { v := [x] } s (s.setV x b) :=
  frame_of_fields (fun _ h => getV_setV_ne s b (List.ne_of_not_mem_cons h)) (fun _ _ => rfl) (fun _ _ => rfl) rfl

theorem frame_writeWithFlag (s : State) (x : RegIdx) (r : Byte × Bool) : Frame { v := [x, VF] } s (s.writeWithFlag x r) :=
  frame_of_fields
    (fun j h => by rw [List.mem_cons, List.mem_singleton, not_or] at h; rw [getV_writeWithFlag, if_neg h.2, if_neg h.1])
    (fun _ _ => rfl) (fun _ _ => rfl) rfl

theorem frame_writeLogic (s : State) (x : RegIdx) (r : Byte) : Frame { v := [x, VF] } s (s.writeLogic x r) := by
  have h (j : RegIdx) (h : j ∉ [x, VF]) : (s.writeLogic x r).getV j = s.getV j := by
    rw [List.mem_cons, List.mem_singleton, not_or] at h
    rw [getV_writeLogic, if_neg fun e => h.2 e.2, if_neg h.1]
  rw [writeLogic_eq] at h ⊢
  exact frame_of_fields h (fun _ _ => rfl) (fun _ _ => rfl) rfl

theorem frame_setPc (s : State) (a : Word16) : Frame { pc := true } s (s.setPc a) :=
  frame_of_fields (fun _ _ => rfl) (fun _ _ => rfl) (fun _ _ => rfl) rfl

theorem frame_setI (s : State) (a : Word16) : Frame { i := true } s (s.setI a) :=
  frame_of_fields (fun _ _ => rfl) (fun _ _ => rfl) (fun _ _ => rfl) rfl

theorem frame_skipIf (s : State) (c : Bool) : Frame { pc := true } s (s.skipIf c) := by
  rw [skipIf_eq]; exact frame_of_fields (fun _ _ => rfl) (fun _ _ => rfl) (fun _ _ => rfl) rfl

theorem frame_push (s : State) (a : Word16) : Frame { stack := [s.sp + 1], sp := true } s (s.push a) :=
  frame_of_fields (fun _ _ => rfl) (fun j h => by rw [getS_push, if_neg (List.ne_of_not_mem_cons h)]) (fun _ _ => rfl) rfl

theorem frame_popToPc (s : State) : Frame { sp := true, pc := true } s s.popToPc :=
  frame_of_fields (fun _ _ => rfl) (fun _ _ => rfl) (fun _ _ => rfl) rfl

theorem frame_storeBytes (s : State) (a : Nat) (us : List Byte) :
    Frame { memBase := a, memLen := us.length } s (s.storeBytes a us) :=
  frame_of_fields (fun _ _ => rfl) (fun _ _ => rfl) (fun _ h => Memory.read_writeList_outside _ h) rfl

theorem frame_loadTransfer (s : State) (x : RegIdx) :
    Frame { v := (List.finRange 16).filter fun j => j ≤ x } s (s.loadTransfer x) := by
  have h (j : RegIdx) (h : j ∉ (List.finRange 16).filter fun j => j ≤ x) : (s.loadTransfer x).getV j = s.getV j := by
    rw [getV_loadTransfer, if_neg (by simpa using h)]
  rw [State.loadTransfer] at h ⊢
  generalize s.transferredRegs x = v at h ⊢
  exact frame_of_fields h (fun _ _ => rfl) (fun _ _ => rfl) rfl

theorem frame_afterTransfer (s : State) (x : RegIdx) : Frame { i := true } s (s.afterTransfer x) := by
  rw [afterTransfer_eq]; exact frame_of_fields (fun _ _ => rfl) (fun _ _ => rfl) (fun _ _ => rfl) rfl

theorem frame_keys (s : State) (ks : List KeyIdx) : Frame { keys := true } s { s with keys := ks } :=
  frame_of_fields (fun _ _ => rfl) (fun _ _ => rfl) (fun _ _ => rfl) rfl

theorem frame_raiseExec (s : State) (c : Cause) (a : Word16) : Frame { run := true, fault := true } s (s.raiseExec c a) :=
  frame_of_fields (fun _ _ => rfl) (fun _ _ => rfl) (fun _ _ => rfl) rfl

/-- A fault raised in execution is the fault the claims speak of (R231). -/
theorem faultsWith_raiseExec (s : State) (c : Cause) (a : Nat) :
    FaultsWith c a s (s.raiseExec c (BitVec.ofNat 16 a)) := ⟨rfl, rfl, frame_raiseExec s c _⟩

theorem frame_answer (s : State) (o : Output) : Frame { env := true } s (s.answer o) :=
  frame_of_fields (fun _ _ => rfl) (fun _ _ => rfl) (fun _ _ => rfl) rfl

theorem frame_nextAction (s : State) : Frame { env := true } s s.nextAction.2 := by
  rw [nextAction_state s]; exact frame_of_fields (fun _ _ => rfl) (fun _ _ => rfl) (fun _ _ => rfl) rfl

theorem frame_beginTick (s : State) (n : TickInputs) : Frame { env := true } s (s.beginTick n) :=
  frame_of_fields (fun _ _ => rfl) (fun _ _ => rfl) (fun _ _ => rfl) rfl

theorem frame_finishTick (s : State) : Frame { dt := true, st := true, env := true } s s.finishTick := by
  rw [finishTick_eq]; exact frame_of_fields (fun _ _ => rfl) (fun _ _ => rfl) (fun _ _ => rfl) rfl

end Sys2Proof.Machine
end

