-- ==== Sys2Proof/Laws/PerInstr.lean ====
section
/-! SUPPORT. Facts about every instruction as syntax, one lemma for each constructor. -/

namespace Sys2Proof.Laws.RowWord

/-- The encoded word lies in the instruction's row of the opcode map: under the row's mask it is the row's match (R95). -/
def Statement (i : Instr) : Prop := ∀ p : Params, encode i &&& maskOf p i = matchOf i

/-! Words under the masks of the opcode map. -/

theorem nnn_F000 (c : BitVec 4) (nnn : Addr12) : encodeNnn c nnn &&& 0xF000 = c ++ 0#12 := by
  have h : (0xF000 : Word16) = (BitVec.allOnes 4 ++ 0#12 : BitVec (4 + 12)) := by decide
  rw [h, encodeNnn]
  exact (BitVec.and_append ..).trans (by simp only [BitVec.and_allOnes, BitVec.and_zero])

theorem xkk_F000 (c : BitVec 4) (x : RegIdx) (kk : Byte) : encodeXkk c x kk &&& 0xF000 = c ++ 0#12 := by
  have h : (0xF000 : Word16) = ((BitVec.allOnes 4 ++ 0#4) ++ 0#8 : BitVec (4 + 4 + 8)) := by decide
  have h2 : c ++ 0#12 = ((c ++ 0#4) ++ 0#8 : BitVec (4 + 4 + 8)) := by
    revert c; decide
  rw [h, h2, encodeXkk]
  exact (BitVec.and_append ..).trans (by rw [BitVec.and_append]; simp only [BitVec.and_allOnes, BitVec.and_zero])

theorem xkk_F0FF (c : BitVec 4) (x : RegIdx) (kk : Byte) :
    encodeXkk c x kk &&& 0xF0FF = ((c ++ 0#4) ++ kk : BitVec (4 + 4 + 8)) := by
  have h : (0xF0FF : Word16) = ((BitVec.allOnes 4 ++ 0#4) ++ BitVec.allOnes 8 : BitVec (4 + 4 + 8)) := by decide
  rw [h, encodeXkk]
  exact (BitVec.and_append ..).trans (by rw [BitVec.and_append]; simp only [BitVec.and_allOnes, BitVec.and_zero])

theorem xyn_F000 (c : BitVec 4) (x y n : Fin 16) : encodeXyn c x y n &&& 0xF000 = c ++ 0#12 :=
  xkk_F000 c x (BitVec.ofFin (w := 4) y ++ BitVec.ofFin (w := 4) n)

theorem xyn_F00F (c : BitVec 4) (x y n : Fin 16) :
    encodeXyn c x y n &&& 0xF00F =
      ((c ++ 0#4) ++ (0#4 ++ BitVec.ofFin (w := 4) n) : BitVec (4 + 4 + (4 + 4))) := by
  have h : (0xF00F : Word16) =
      ((BitVec.allOnes 4 ++ 0#4) ++ (0#4 ++ BitVec.allOnes 4) : BitVec (4 + 4 + (4 + 4))) := by decide
  rw [h, encodeXyn]
  exact (BitVec.and_append ..).trans (by rw [BitVec.and_append, BitVec.and_append]; simp only [BitVec.and_allOnes, BitVec.and_zero])

theorem clearDisplay : Statement .clearDisplay := by
  intro p; cases h : p.class0LowbyteOnly <;> simp [encode, maskOf, matchOf, h]
theorem ret : Statement .ret := by
  intro p; cases h : p.class0LowbyteOnly <;> simp [encode, maskOf, matchOf, h]
theorem jump (nnn : Addr12) : Statement (.jump nnn) := fun _ => nnn_F000 ..
theorem callSubroutine (nnn : Addr12) : Statement (.callSubroutine nnn) := fun _ => nnn_F000 ..
theorem skipIfEqImm (x : RegIdx) (kk : Byte) : Statement (.skipIfEqImm x kk) := fun _ => xkk_F000 ..
theorem skipIfNeImm (x : RegIdx) (kk : Byte) : Statement (.skipIfNeImm x kk) := fun _ => xkk_F000 ..
theorem skipIfEqReg (x y : RegIdx) : Statement (.skipIfEqReg x y) := by
  intro p
  cases h : p.skipRegStrict
  · simp only [maskOf, h]; exact xyn_F000 ..
  · simp only [maskOf, h]; exact xyn_F00F ..
theorem setImm (x : RegIdx) (kk : Byte) : Statement (.setImm x kk) := fun _ => xkk_F000 ..
theorem addImm (x : RegIdx) (kk : Byte) : Statement (.addImm x kk) := fun _ => xkk_F000 ..
theorem setReg (x y : RegIdx) : Statement (.setReg x y) := fun _ => xyn_F00F ..
theorem orRegs (x y : RegIdx) : Statement (.orRegs x y) := fun _ => xyn_F00F ..
theorem andRegs (x y : RegIdx) : Statement (.andRegs x y) := fun _ => xyn_F00F ..
theorem xorRegs (x y : RegIdx) : Statement (.xorRegs x y) := fun _ => xyn_F00F ..
theorem addRegs (x y : RegIdx) : Statement (.addRegs x y) := fun _ => xyn_F00F ..
theorem subRegs (x y : RegIdx) : Statement (.subRegs x y) := fun _ => xyn_F00F ..
theorem shiftRight (x y : RegIdx) : Statement (.shiftRight x y) := fun _ => xyn_F00F ..
theorem subReversed (x y : RegIdx) : Statement (.subReversed x y) := fun _ => xyn_F00F ..
theorem shiftLeft (x y : RegIdx) : Statement (.shiftLeft x y) := fun _ => xyn_F00F ..
theorem skipIfNeReg (x y : RegIdx) : Statement (.skipIfNeReg x y) := by
  intro p
  cases h : p.skipRegStrict
  · simp only [maskOf, h]; exact xyn_F000 ..
  · simp only [maskOf, h]; exact xyn_F00F ..
theorem setIndex (nnn : Addr12) : Statement (.setIndex nnn) := fun _ => nnn_F000 ..
theorem jumpOffset (nnn : Addr12) (x : RegIdx) : Statement (.jumpOffset nnn x) := fun _ => nnn_F000 ..
theorem randomAnd (x : RegIdx) (kk : Byte) : Statement (.randomAnd x kk) := fun _ => xkk_F000 ..
theorem drawSprite (x y : RegIdx) (n : Fin 16) : Statement (.drawSprite x y n) := fun _ => xyn_F000 ..
theorem skipIfKey (x : RegIdx) : Statement (.skipIfKey x) := fun _ => xkk_F0FF ..
theorem skipIfNotKey (x : RegIdx) : Statement (.skipIfNotKey x) := fun _ => xkk_F0FF ..
theorem getDelay (x : RegIdx) : Statement (.getDelay x) := fun _ => xkk_F0FF ..
theorem loadKey (x : RegIdx) : Statement (.loadKey x) := fun _ => xkk_F0FF ..
theorem setDelay (x : RegIdx) : Statement (.setDelay x) := fun _ => xkk_F0FF ..
theorem setSound (x : RegIdx) : Statement (.setSound x) := fun _ => xkk_F0FF ..
theorem addIndex (x : RegIdx) : Statement (.addIndex x) := fun _ => xkk_F0FF ..
theorem setIndexToDigit (x : RegIdx) : Statement (.setIndexToDigit x) := fun _ => xkk_F0FF ..
theorem storeBcd (x : RegIdx) : Statement (.storeBcd x) := fun _ => xkk_F0FF ..
theorem storeRegs (x : RegIdx) : Statement (.storeRegs x) := fun _ => xkk_F0FF ..
theorem loadRegs (x : RegIdx) : Statement (.loadRegs x) := fun _ => xkk_F0FF ..

end Sys2Proof.Laws.RowWord
end

