-- ==== Sys2Proof/Tests/Slice0.lean ====
section
/-! SUPPORT. The model's own tests: the well-formedness smoke, the decoder against words written out from 30_encoding.md, one
step against the vectors of 95_test_vectors.md, and for every statement with hypotheses a witness that meets them. -/

namespace Sys2Proof.Tests

open Sys2Proof Sys2Proof.Machine

/-- What a function sees of the next state; nothing when there is none. -/
def see {α : Type} (f : State → α) : Host.Outcome State Fault Refusal → Option α
  | .next t => some (f t)
  | .fault _ => none
  | .refused _ => none

/-- A state whose host goes on as scripted. -/
def scripted (s : State) (actions : List HostAction) : State := { s with env := { s.env with host := actions } }

/-- Registers set as listed. -/
def regs (s : State) (l : List (RegIdx × Byte)) : State := l.foldl (fun s p => s.setV p.1 p.2) s

/-- A tick at a 640 by 320 target with `rnd = 0xA7`. -/
def tickNow (due : Bool) : HostAction := .tick ⟨due, 0xA7, 640, 320⟩

/-- The word at `pc`, and a tick next. -/
def ready (s : State) (w : Nat) (due : Bool := false) : State := scripted (s.withFetchWord 16 w) [tickNow due]

/-- After reset, with parameters changed. -/
def resetWith (p : Params) : State := { State.reset with params := p }

/-! ## WellFormed -/

/-- The one check: `JP V0, nnn` whose `x` is not the top nibble of `nnn` is no word (R93, R82). -/
theorem test_wf_refuses_jumpOffset : Instr.wf (.jumpOffset 0x300 0x2) = false := by decide

theorem test_wf_takes_jumpOffset : Instr.wf (.jumpOffset 0x300 0x3) = true := by decide

/-! ## Decode: the word of every constructor, bit by bit from the formats of R81 and the rows of R95 -/

theorem test_decode_class0 :
    decode .default 0b0000_0000_1110_0000 = .instr .clearDisplay ∧ decode .default 0b0000_0000_1110_1110 = .instr .ret := by
  decide

theorem test_decode_addresses :
    decode .default 0b0001_0010_0011_0100 = .instr (.jump 0x234) ∧
    decode .default 0b0010_0011_0000_0000 = .instr (.callSubroutine 0x300) ∧
    decode .default 0b1010_0011_0000_0000 = .instr (.setIndex 0x300) ∧
    decode .default 0b1011_0011_0001_0010 = .instr (.jumpOffset 0x312 0x3) := by decide

theorem test_decode_immediates :
    decode .default 0b0011_0011_0100_0010 = .instr (.skipIfEqImm 3 0x42) ∧
    decode .default 0b0100_0011_0100_0010 = .instr (.skipIfNeImm 3 0x42) ∧
    decode .default 0b0110_0000_0000_1010 = .instr (.setImm 0 0x0A) ∧
    decode .default 0b0111_0010_0000_0101 = .instr (.addImm 2 0x05) ∧
    decode .default 0b1100_0011_0000_1111 = .instr (.randomAnd 3 0x0F) := by decide

theorem test_decode_registers :
    decode .default 0b0101_0001_0010_0101 = .instr (.skipIfEqReg 1 2) ∧
    decode .default 0b1001_1010_1011_0000 = .instr (.skipIfNeReg 0xA 0xB) ∧
    decode .default 0b1000_0001_0010_0000 = .instr (.setReg 1 2) ∧
    decode .default 0b1000_0001_0010_0001 = .instr (.orRegs 1 2) ∧
    decode .default 0b1000_0001_0010_0010 = .instr (.andRegs 1 2) ∧
    decode .default 0b1000_0001_0010_0011 = .instr (.xorRegs 1 2) ∧
    decode .default 0b1000_0000_0001_0100 = .instr (.addRegs 0 1) ∧
    decode .default 0b1000_0001_0010_0101 = .instr (.subRegs 1 2) ∧
    decode .default 0b1000_0001_0010_0110 = .instr (.shiftRight 1 2) ∧
    decode .default 0b1000_0001_0010_0111 = .instr (.subReversed 1 2) ∧
    decode .default 0b1000_0001_0010_1110 = .instr (.shiftLeft 1 2) ∧
    decode .default 0b1101_0000_0001_0101 = .instr (.drawSprite 0 1 5) := by decide

theorem test_decode_classE :
    decode .default 0b1110_0001_1001_1110 = .instr (.skipIfKey 1) ∧
    decode .default 0b1110_0001_1010_0001 = .instr (.skipIfNotKey 1) := by decide

theorem test_decode_classF :
    decode .default 0b1111_0001_0000_0111 = .instr (.getDelay 1) ∧
    decode .default 0b1111_0001_0000_1010 = .instr (.loadKey 1) ∧
    decode .default 0b1111_0001_0001_0101 = .instr (.setDelay 1) ∧
    decode .default 0b1111_0001_0001_1000 = .instr (.setSound 1) ∧
    decode .default 0b1111_0001_0001_1110 = .instr (.addIndex 1) ∧
    decode .default 0b1111_0001_0010_1001 = .instr (.setIndexToDigit 1) ∧
    decode .default 0b1111_0001_0011_0011 = .instr (.storeBcd 1) ∧
    decode .default 0b1111_0001_0101_0101 = .instr (.storeRegs 1) ∧
    decode .default 0b1111_0001_0110_0101 = .instr (.loadRegs 1) := by decide

/-- V-DEC-1, 4, 5, 8, 11, 13. -/
theorem test_decode_failures :
    [0x0000, 0x01E0, 0x0123, 0x8008, 0x800C, 0x800F, 0xE1A2, 0xE100, 0xF100, 0xF108, 0xF1FF, 0xFFFF].all
      (fun w : Word16 => decide (decode .default w = .decodeFailure w)) = true := by decide

/-- V-DEC-4, V-DEC-6: the two decoder parameters. -/
theorem test_decode_parameters :
    decode { Params.default with class0LowbyteOnly := true } 0x01E0 = .instr .clearDisplay ∧
    decode { Params.default with skipRegStrict := true } 0x5121 = .decodeFailure 0x5121 := by decide

/-- The bytes of a word lie high byte first (R68), and a word needs two of them (R80). -/
theorem test_decode_bytes :
    decodeBytes .default [0x60, 0x0A] = some (.setImm 0 0x0A) ∧ decodeBytes .default [0x0A, 0x60] = none ∧
    decodeBytes .default [0x60] = none ∧ decodeTableWord 16 0x8014 = some (.addRegs 0 1) ∧
    decodeTableWord 16 0xFFFF = none := by decide

/-! ## Encode: the words of the spec's examples -/

theorem test_encode_examples :
    encode (.setImm 0 0x0A) = 0x600A ∧ encode (.addRegs 0 1) = 0x8014 ∧ encode (.drawSprite 0 1 5) = 0xD015 ∧
    encode (.jumpOffset 0x312 3) = 0xB312 ∧ encode (.loadRegs 2) = 0xF265 := by decide

/-! ## One step of every instruction, from 95_test_vectors.md -/

/-- What `withFetchWord` places is what the first step after reset runs, even with no script left and whatever the inputs. -/
theorem test_first_step_after_reset :
    see (fun t => (t.getV 0, t.pc, t.run)) (step (State.reset.withFetchWord 16 0x600A)) = some (0x0A, 0x202, .running) := by
  decide

/-- V-CF-1. -/
theorem test_jump : see (fun t => t.pc) (step (ready .reset 0x1234)) = some 0x234 := by decide

/-- V-CF-4. -/
theorem test_call :
    see (fun t => (t.sp, t.getS 15, t.pc)) (step (ready { State.reset with pc := 0x400, sp := 14 } 0x2500)) =
      some (15, 0x402, 0x500) := by decide

/-- V-CF-5. -/
theorem test_call_overflow :
    see (fun t => (t.run, t.fault, t.pc, t.sp, t.env.output))
      (step (ready { State.reset with pc := 0x400, sp := 15 } 0x2500)) =
      some (.faulted, ⟨.stackOverflow, 0x400, 0⟩, 0x402, 15, .silent) := by decide

/-- V-CF-6. -/
theorem test_ret :
    see (fun t => (t.sp, t.getS 1, t.pc))
      (step (ready { State.reset with pc := 0x302, sp := 1, stack := State.reset.stack.set 1 0x202 } 0x00EE)) =
      some (0, 0x202, 0x202) := by decide

/-- V-CF-7. -/
theorem test_ret_underflow :
    see (fun t => (t.run, t.fault, t.pc, t.sp)) (step (ready .reset 0x00EE)) =
      some (.faulted, ⟨.stackUnderflow, 0x200, 0⟩, 0x202, 0) := by decide

/-- V-CF-9, both settings of the parameter. -/
theorem test_jumpOffset :
    see (fun t => t.pc) (step (ready (regs .reset [(0, 0x10), (3, 0x04)]) 0xB312)) = some 0x322 ∧
    see (fun t => t.pc)
      (step (ready (regs (resetWith { Params.default with jumpOffsetUsesVx := true }) [(0, 0x10), (3, 0x04)]) 0xB312)) =
      some 0x316 := by decide

/-- V-CF-10. -/
theorem test_jumpOffset_top : see (fun t => t.pc) (step (ready (regs .reset [(0, 0xFF)]) 0xBFFF)) = some 0x10FE := by decide

/-- V-CF-11, V-CF-12. -/
theorem test_skipIfEqImm :
    see (fun t => t.pc) (step (ready (regs { State.reset with pc := 0x204 } [(3, 0x42)]) 0x3342)) = some 0x208 ∧
    see (fun t => t.pc) (step (ready (regs { State.reset with pc := 0x204 } [(3, 0x41)]) 0x3342)) = some 0x206 := by decide

/-- V-CF-13, V-CF-14. -/
theorem test_skipIfNeImm :
    see (fun t => t.pc) (step (ready (regs { State.reset with pc := 0x204 } [(3, 0x41)]) 0x4342)) = some 0x208 ∧
    see (fun t => t.pc) (step (ready (regs { State.reset with pc := 0x204 } [(3, 0x42)]) 0x4342)) = some 0x206 := by decide

/-- V-CF-15, V-CF-16. -/
theorem test_skipIfEqReg :
    see (fun t => t.pc) (step (ready (regs { State.reset with pc := 0x204 } [(1, 7), (2, 7)]) 0x5125)) = some 0x208 ∧
    see (fun t => t.pc) (step (ready (regs { State.reset with pc := 0x204 } [(1, 7), (2, 8)]) 0x5120)) = some 0x206 := by decide

/-- V-CF-17, V-CF-18. -/
theorem test_skipIfNeReg :
    see (fun t => t.pc) (step (ready (regs { State.reset with pc := 0x204 } [(1, 7), (2, 8)]) 0x9120)) = some 0x208 ∧
    see (fun t => t.pc) (step (ready { State.reset with pc := 0x204 } 0x9330)) = some 0x206 := by decide

/-- V-ALU-2. -/
theorem test_setImm : see (fun t => t.getV 0xF) (step (ready (regs .reset [(0xF, 1)]) 0x6F42)) = some 0x42 := by decide

/-- V-ALU-3. -/
theorem test_addImm :
    see (fun t => (t.getV 2, t.getV 0xF)) (step (ready (regs .reset [(2, 0xFE), (0xF, 0x55)]) 0x7205)) = some (0x03, 0x55) := by
  decide

/-- V-ALU-7. -/
theorem test_setReg : see (fun t => t.getV 1) (step (ready (regs .reset [(2, 0x33)]) 0x8120)) = some 0x33 := by decide

/-- V-ALU-8, both settings of the parameter. -/
theorem test_orRegs :
    see (fun t => (t.getV 1, t.getV 0xF)) (step (ready (regs .reset [(1, 0x0F), (2, 0xF0), (0xF, 7)]) 0x8121)) =
      some (0xFF, 7) ∧
    see (fun t => (t.getV 1, t.getV 0xF))
      (step (ready (regs (resetWith { Params.default with logicResetsVf := true }) [(1, 0x0F), (2, 0xF0), (0xF, 7)]) 0x8121)) =
      some (0xFF, 0) := by decide

/-- V-ALU-9. -/
theorem test_andRegs :
    see (fun t => t.getV 1) (step (ready (regs .reset [(1, 0x3C), (2, 0x0F)]) 0x8122)) = some 0x0C := by decide

/-- V-ALU-10. -/
theorem test_xorRegs :
    see (fun t => t.getV 1) (step (ready (regs .reset [(1, 0xFF), (2, 0x0F)]) 0x8123)) = some 0xF0 := by decide

/-- X3: a sum of 256, and V-ALU-17: the flag over the result. -/
theorem test_addRegs :
    see (fun t => (t.getV 0, t.getV 0xF)) (step (ready (regs .reset [(0, 0x80), (1, 0x80)]) 0x8014)) = some (0x00, 1) ∧
    see (fun t => t.getV 0xF) (step (ready (regs .reset [(0xF, 0xFF), (1, 0x01)]) 0x8F14)) = some 1 := by decide

/-- V-ALU-18: the old VF is read as the operand. -/
theorem test_addRegs_reads_vf :
    see (fun t => (t.getV 1, t.getV 0xF)) (step (ready (regs .reset [(1, 3), (0xF, 1)]) 0x81F4)) = some (4, 0) := by decide

/-- V-ALU-20, V-ALU-21. -/
theorem test_subRegs :
    see (fun t => (t.getV 1, t.getV 0xF)) (step (ready (regs .reset [(1, 3), (2, 5)]) 0x8125)) = some (0xFE, 0) ∧
    see (fun t => (t.getV 1, t.getV 0xF)) (step (ready (regs .reset [(1, 7), (2, 7)]) 0x8125)) = some (0, 1) := by decide

/-- V-ALU-24, V-ALU-25. -/
theorem test_subReversed :
    see (fun t => (t.getV 1, t.getV 0xF)) (step (ready (regs .reset [(1, 3), (2, 5)]) 0x8127)) = some (2, 1) ∧
    see (fun t => (t.getV 1, t.getV 0xF)) (step (ready (regs .reset [(1, 5), (2, 3)]) 0x8127)) = some (0xFE, 0) := by decide

/-- V-ALU-31, both settings of the parameter. -/
theorem test_shiftRight :
    see (fun t => (t.getV 1, t.getV 0xF)) (step (ready (regs .reset [(2, 0x03)]) 0x8126)) = some (0, 0) ∧
    see (fun t => (t.getV 1, t.getV 2, t.getV 0xF))
      (step (ready (regs (resetWith { Params.default with shiftUsesVy := true }) [(2, 0x03)]) 0x8126)) =
      some (0x01, 0x03, 1) := by decide

/-- V-ALU-33, V-ALU-36. -/
theorem test_shiftLeft :
    see (fun t => (t.getV 1, t.getV 0xF)) (step (ready (regs .reset [(1, 0x81)]) 0x810E)) = some (0x02, 1) ∧
    see (fun t => t.getV 0xF) (step (ready (regs .reset [(0xF, 0x40)]) 0x8F0E)) = some 0 := by decide

/-- V-ALU-37. -/
theorem test_randomAnd : see (fun t => t.getV 3) (step (ready .reset 0xC30F)) = some 0x07 := by decide

/-- V-DRW-14, on a framebuffer with one lit cell. -/
theorem test_clearDisplay :
    see (fun t => (t.fb.cell 1 2, t.getV 0xF))
      (step (ready (regs { State.reset with fb := State.reset.fb.set 1 ((Vector.replicate 64 false).set 2 true) } [(0xF, 1)])
        0x00E0)) = some (false, 1) := by decide

/-- V-DRW-10: bit 7 leftmost, the old VF as the column, VF overwritten by the flag. -/
theorem test_drawSprite :
    see (fun t => (t.fb.cell 0 9, t.fb.cell 0 10, t.fb.cell 0 11, t.fb.cell 0 12, t.getV 0xF))
      (step (ready (regs { State.reset with i := 0x300, mem := [(0x300, 0xC0)] } [(0xF, 10)]) 0xDF11)) =
      some (false, true, true, false, 0) := by decide

/-- V-DRW-12: the fault although both rows would be clipped. -/
theorem test_drawSprite_fault :
    see (fun t => (t.run, t.fault, t.pc)) (step (ready (regs { State.reset with i := 0xFFF } [(1, 40)]) 0xD012)) =
      some (.faulted, ⟨.memReadBounds, 0x200, 0x1000⟩, 0x202) := by decide

/-- V-KEY-2, V-KEY-3. -/
theorem test_skipIfKey :
    see (fun t => (t.pc, t.keys)) (step (ready (regs { State.reset with pc := 0x204, keys := [2, 5] } [(3, 5)]) 0xE39E)) =
      some (0x208, [2]) ∧
    see (fun t => (t.pc, t.keys)) (step (ready (regs { State.reset with pc := 0x204, keys := [5, 2] } [(3, 5)]) 0xE39E)) =
      some (0x206, [5]) := by decide

/-- V-KEY-7, V-KEY-9: no skip on an empty queue; the full 8 bits compared. -/
theorem test_skipIfNotKey :
    see (fun t => (t.pc, t.keys)) (step (ready (regs { State.reset with pc := 0x204 } [(3, 5)]) 0xE3A1)) =
      some (0x206, []) ∧
    see (fun t => (t.pc, t.keys)) (step (ready (regs { State.reset with pc := 0x204, keys := [5] } [(3, 0x15)]) 0xE3A1)) =
      some (0x208, []) := by decide

/-- V-KEY-10, V-KEY-11. -/
theorem test_loadKey :
    see (fun t => (t.getV 2, t.keys, t.run, t.pc)) (step (ready { State.reset with pc := 0x204, keys := [1, 2] } 0xF20A)) =
      some (2, [1], .running, 0x206) ∧
    see (fun t => (t.run, t.pc, t.dt)) (step (ready { State.reset with pc := 0x204, dt := 3 } 0xF20A true)) =
      some (.awaitingKey 2, 0x206, 2) := by decide

/-- V-KEY-12, V-KEY-13. -/
theorem test_waiting :
    see (fun t => (t.dt, t.run, t.pc))
      (step (scripted { State.reset with pc := 0x206, dt := 2, run := .awaitingKey 2 } [tickNow true])) =
      some (1, .awaitingKey 2, 0x206) ∧
    see (fun t => (t.getV 2, t.keys, t.run, t.pc))
      (step (scripted { State.reset with pc := 0x206, keys := [4, 7], run := .awaitingKey 2 } [tickNow false])) =
      some (7, [4], .running, 0x206) := by decide

/-- V-TIM-2: the value before the decay. -/
theorem test_getDelay :
    see (fun t => (t.getV 3, t.dt)) (step (ready { State.reset with dt := 0x3C } 0xF307 true)) = some (0x3C, 0x3B) := by decide

/-- V-TIM-3, V-TIM-4. -/
theorem test_setDelay :
    see (fun t => t.dt) (step (ready (regs .reset [(3, 0x3C)]) 0xF315 true)) = some 0x3B ∧
    see (fun t => t.dt) (step (ready (regs .reset [(3, 0x3C)]) 0xF315)) = some 0x3C := by decide

/-- V-TIM-5. -/
theorem test_setSound : see (fun t => t.st) (step (ready (regs .reset [(3, 0x05)]) 0xF318 true)) = some 0x04 := by decide

/-- V-IDX-1. -/
theorem test_setIndex : see (fun t => t.i) (step (ready .reset 0xA300)) = some 0x300 := by decide

/-- V-IDX-3, V-IDX-4. -/
theorem test_addIndex :
    see (fun t => (t.i, t.getV 0xF)) (step (ready (regs { State.reset with i := 0xFFF } [(1, 1)]) 0xF11E)) =
      some (0x1000, 0) ∧
    see (fun t => t.i) (step (ready (regs { State.reset with i := 0xFFFF } [(1, 1)]) 0xF11E)) = some 0 := by decide

/-- V-IDX-6, V-IDX-8. -/
theorem test_setIndexToDigit :
    see (fun t => t.i) (step (ready (regs .reset [(1, 0x0F)]) 0xF129)) = some 0x04B ∧
    see (fun t => t.i) (step (ready (regs .reset [(1, 0xFF)]) 0xF129)) = some 0x4FB := by decide

/-- V-BCD-5. -/
theorem test_storeBcd :
    see (fun t => t.memBytes 0x300 3) (step (ready (regs { State.reset with i := 0x300 } [(0, 255)]) 0xF033)) =
      some [2, 5, 5] := by decide

/-- V-BCD-7. -/
theorem test_storeBcd_fault :
    see (fun t => (t.run, t.fault, t.memBytes 0xFFE 2)) (step (ready (regs { State.reset with i := 0xFFE } [(0, 1)]) 0xF033)) =
      some (.faulted, ⟨.memWriteBounds, 0x200, 0x1000⟩, [0, 0]) := by decide

/-- V-MEM-1, both settings of the parameter. -/
theorem test_storeRegs :
    see (fun t => (t.memBytes 0x300 4, t.i)) (step (ready (regs { State.reset with i := 0x300 } [(0, 1), (1, 2), (2, 3)]) 0xF255)) =
      some ([1, 2, 3, 0], 0x300) ∧
    see (fun t => t.i) (step (ready { resetWith { Params.default with ldiIncrementsI := true } with i := 0x300 } 0xF255)) =
      some 0x303 := by decide

/-- V-MEM-10. -/
theorem test_storeRegs_fault :
    see (fun t => t.fault) (step (ready { State.reset with i := 0x1005 } 0xF055)) =
      some ⟨.memWriteBounds, 0x200, 0x1005⟩ := by decide

/-- V-MEM-6. -/
theorem test_loadRegs :
    see (fun t => (t.getV 0, t.getV 1, t.getV 2, t.getV 3))
      (step (ready (regs { State.reset with i := 0x300, mem := [(0x300, 2), (0x301, 1), (0x302, 3)] } [(3, 9)]) 0xF265)) =
      some (2, 1, 3, 9) := by decide

/-- V-MEM-9. -/
theorem test_loadRegs_fault :
    see (fun t => (t.run, t.fault, t.getV 0)) (step (ready { State.reset with i := 0x1000 } 0xF065)) =
      some (.faulted, ⟨.memReadBounds, 0x200, 0x1000⟩, 0) := by decide

/-- V-FLT-2: a fetch that leaves memory; no advance, no render, no decay. -/
theorem test_fetch_fault :
    see (fun t => (t.run, t.fault, t.pc, t.dt, t.env.output))
      (step (scripted { State.reset with pc := 0xFFF, dt := 5 } [tickNow true])) =
      some (.faulted, ⟨.fetchBounds, 0xFFF, 0x1000⟩, 0xFFF, 5, .silent) := by decide

/-- V-FLT-1: the last word of memory runs. -/
theorem test_fetch_last_word :
    see (fun t => (t.run, t.pc)) (step (ready { State.reset with pc := 0xFFE } 0x00E0)) = some (.running, 0x1000) := by decide

/-- V-DEC-17. -/
theorem test_decode_failure_runs :
    see (fun t => (t.pc, t.dt, t.run)) (step (ready { State.reset with pc := 0x300, dt := 5 } 0xFFFF true)) =
      some (0x302, 4, .running) := by decide

/-- V-FLT-5, V-LD-3. -/
theorem test_load :
    see (fun t => (t.memBytes 0x200 2, t.run, t.env.output))
      (step (scripted { State.reset with run := .faulted } [.load [0x12, 0x00]])) =
      some ([0x12, 0x00], .faulted, .loadOk) ∧
    see (fun t => t.memBytes 0x200 4)
      (step (scripted { State.reset with mem := [(0x200, 1), (0x201, 2), (0x202, 3), (0x203, 4)] } [.load [9]])) =
      some [9, 2, 3, 4] := by decide

/-- V-KEY-14, and a key of the default KEYMAP. -/
theorem test_pushKey :
    see (fun t => (t.keys, t.run)) (step (scripted { State.reset with run := .faulted } [.pushKey 1])) =
      some ([1], .faulted) ∧
    see (fun t => t.keys) (step (scripted .reset [.keySymbol 'V'])) = some [0xF] := by decide

set_option maxRecDepth 8000 in
/-- V-RST-1, V-RST-2. -/
theorem test_construct :
    see (fun t => t.run)
      (step (scripted { State.reset with run := .faulted, mem := [(0, 1), (0x200, 7)] } [.construct])) = some .running ∧
    see (fun t => t.memBytes 0 5 ++ [t.memByte 0x200])
      (step (scripted { State.reset with run := .faulted, mem := [(0, 1), (0x200, 7)] } [.construct])) =
      some [0xF0, 0x90, 0x90, 0x90, 0xF0, 0] := by decide

/-- V-REN-1: calls 0 and 66 of the sequence (behind `clear`), and its length. -/
theorem test_render :
    (renderCalls (Framebuffer.blank.set 1 ((Vector.replicate 64 false).set 2 true)) 640 320)[67]? =
      some (.fillRect 20 10 10 10 .white) ∧
    (renderCalls (Framebuffer.blank.set 1 ((Vector.replicate 64 false).set 2 true)) 640 320)[1]? =
      some (.fillRect 0 0 10 10 .black) := by decide

/-! ## Witnesses: a state and operands that meet the hypotheses of each statement that has any, clause by clause -/

/-- The stopped core. -/
def stopped : State := { State.reset with run := .faulted, fault := ⟨.fetchBounds, 0x1000, 0x1000⟩ }

/-- The core waiting for a key for V2. -/
def waiting (keys : List KeyIdx) : State := { State.reset with pc := 0x206, run := .awaitingKey 2, keys := keys }

/-- ResetHoldsTheTableOfValues: the first and the last address above the font. -/
theorem witness_reset_addresses : (0x50 ≤ 0x50 ∧ 0x50 < 4096) ∧ 0x50 ≤ 4095 ∧ 4095 < 4096 := by decide

/-- ConstructResetsAnyStateAndAloneLeavesFaulted, both parts. -/
theorem witness_construct :
    (scripted stopped [.construct]).env.host = .construct :: [] ∧
    ∃ t, (scripted stopped [.construct]).run = .faulted ∧ step (scripted stopped [.construct]) = .next t ∧
      t.run ≠ .faulted := ⟨rfl, _, rfl, rfl, by decide⟩

/-- LoadCopiesTheImageOrChangesNothing: 3585 bytes and 3584. -/
theorem witness_load :
    (scripted .reset [.load (List.replicate 3585 1)]).env.host = .load (List.replicate 3585 1) :: [] ∧
    0x200 + (List.replicate 3585 (1 : Byte)).length > 4096 ∧ 0x200 + (List.replicate 3584 (1 : Byte)).length ≤ 4096 :=
  ⟨rfl, by rw [List.length_replicate]; decide, by rw [List.length_replicate]⟩

/-- LoadThenReadReturnsTheImage: the longest image. -/
theorem witness_load_read :
    ∃ t, (scripted .reset [.load (List.replicate 3584 1)]).env.host = .load (List.replicate 3584 1) :: [] ∧
      (List.replicate 3584 (1 : Byte)).length ≤ 3584 ∧
      step (scripted .reset [.load (List.replicate 3584 1)]) = .next t :=
  ⟨_, rfl, by rw [List.length_replicate], rfl⟩

/-- PushKeyAppendsInEveryRunState: a key, a mapped symbol, an unmapped one. -/
theorem witness_pushKey :
    (scripted stopped [.pushKey 0xF]).env.host = .pushKey 0xF :: [] ∧
    (scripted .reset [.keySymbol 'V']).env.host = .keySymbol 'V' :: [] ∧
    (scripted .reset [.keySymbol 'V']).params.keymap.lookup 'V' = some 0xF ∧
    (scripted .reset [.keySymbol 'P']).params.keymap.lookup 'P' = none := by decide

/-- TickFetchesAdvancesAndExecutes: the first `pc` that cannot fetch, and the last that can, with an instruction and with a
decode failure. -/
theorem witness_tick :
    (scripted { State.reset with pc := 0xFFF } [tickNow true]).nextAction.1 = .tick ⟨true, 0xA7, 640, 320⟩ ∧
    (scripted { State.reset with pc := 0xFFF } [tickNow true]).run = .running ∧
    (scripted { State.reset with pc := 0xFFF } [tickNow true]).pc.toNat + 1 ≥ 4096 ∧
    (ready { State.reset with pc := 0xFFE } 0x00E0).nextAction.1 = .tick ⟨false, 0xA7, 640, 320⟩ ∧
    (ready { State.reset with pc := 0xFFE } 0x00E0).run = .running ∧
    (ready { State.reset with pc := 0xFFE } 0x00E0).pc.toNat + 1 < 4096 ∧
    decode (ready { State.reset with pc := 0xFFE } 0x00E0).params
      ((ready { State.reset with pc := 0xFFE } 0x00E0).memByte 0xFFE ++
        (ready { State.reset with pc := 0xFFE } 0x00E0).memByte 0xFFF) = .instr .clearDisplay ∧
    decode (ready { State.reset with pc := 0xFFE } 0xFFFF).params
      ((ready { State.reset with pc := 0xFFE } 0xFFFF).memByte 0xFFE ++
        (ready { State.reset with pc := 0xFFE } 0xFFFF).memByte 0xFFF) = .decodeFailure 0xFFFF := by decide

/-- DecodeFailureIsANoOp. -/
theorem witness_decode_failure :
    (ready { State.reset with pc := 0xFFE } 0xFFFF true).nextAction.1 = .tick ⟨true, 0xA7, 640, 320⟩ ∧
    (ready { State.reset with pc := 0xFFE } 0xFFFF true).run = .running ∧
    (ready { State.reset with pc := 0xFFE } 0xFFFF true).pc.toNat + 1 < 4096 ∧
    decode (ready { State.reset with pc := 0xFFE } 0xFFFF true).params
      ((ready { State.reset with pc := 0xFFE } 0xFFFF true).memByte 0xFFE ++
        (ready { State.reset with pc := 0xFFE } 0xFFFF true).memByte 0xFFF) = .decodeFailure 0xFFFF := by decide

/-- TickInFaultedDoesNothing. -/
theorem witness_tick_faulted :
    (scripted stopped [tickNow true]).nextAction.1 = .tick ⟨true, 0xA7, 640, 320⟩ ∧
    (scripted stopped [tickNow true]).run = .faulted := by decide

/-- FaultedKeepsTheFirstFaultUntilConstruct: each of the five clauses has a transaction. -/
theorem witness_faulted :
    (∃ t, stopped.run = .faulted ∧ step stopped = .next t ∧ stopped.env.host.head? ≠ some .construct) ∧
    (∃ t, step (scripted stopped [tickNow true]) = .next t ∧
      (scripted stopped [tickNow true]).nextAction.1 = .tick ⟨true, 0xA7, 640, 320⟩) ∧
    (∃ t, step (scripted stopped [.pushKey 1]) = .next t ∧
      (scripted stopped [.pushKey 1]).env.host.head? = some (.pushKey 1)) ∧
    (∃ t, step (scripted stopped [.load [0x12, 0x00]]) = .next t ∧
      (scripted stopped [.load [0x12, 0x00]]).env.host.head? = some (.load [0x12, 0x00])) ∧
    ∃ t, step (scripted stopped [.construct]) = .next t ∧
      (scripted stopped [.construct]).env.host.head? = some .construct :=
  ⟨⟨_, rfl, rfl, by decide⟩, ⟨_, rfl, rfl⟩, ⟨_, rfl, rfl⟩, ⟨_, rfl, rfl⟩, ⟨_, rfl, rfl⟩⟩

/-- WaitingTickWithNoKeyOnlyRendersAndDecays and WaitingTickWithAKeyCompletesTheWait. -/
theorem witness_waiting :
    (scripted (waiting []) [tickNow true]).nextAction.1 = .tick ⟨true, 0xA7, 640, 320⟩ ∧
    (scripted (waiting []) [tickNow true]).run = .awaitingKey 2 ∧ (scripted (waiting []) [tickNow true]).keys = [] ∧
    (scripted (waiting [4, 7]) [tickNow true]).nextAction.1 = .tick ⟨true, 0xA7, 640, 320⟩ ∧
    (scripted (waiting [4, 7]) [tickNow true]).run = .awaitingKey 2 ∧
    (scripted (waiting [4, 7]) [tickNow true]).keys = [4] ++ [7] := by decide

/-- NonFaultingTickDecaysBothTimersOnce: waiting, and running over a decode failure. -/
theorem witness_decay :
    (∃ u t, (scripted (waiting [7]) [tickNow true]).nextAction.1 = .tick ⟨true, 0xA7, 640, 320⟩ ∧
      AfterInstructionStep (scripted (waiting [7]) [tickNow true]) ⟨true, 0xA7, 640, 320⟩ u ∧
      step (scripted (waiting [7]) [tickNow true]) = .next t ∧ t.run ≠ .faulted) ∧
    ∃ u t, (ready .reset 0xFFFF true).nextAction.1 = .tick ⟨true, 0xA7, 640, 320⟩ ∧
      AfterInstructionStep (ready .reset 0xFFFF true) ⟨true, 0xA7, 640, 320⟩ u ∧
      step (ready .reset 0xFFFF true) = .next t ∧ t.run ≠ .faulted :=
  ⟨⟨_, _, rfl, rfl, rfl, by decide⟩, ⟨_, _, rfl, rfl, rfl, by decide⟩⟩

/-- NonFaultingTickRendersEveryCell, with the first and the last cell. -/
theorem witness_render :
    (∃ t, (ready .reset 0x00E0).nextAction.1 = .tick ⟨false, 0xA7, 640, 320⟩ ∧ (ready .reset 0x00E0).run ≠ .faulted ∧
      step (ready .reset 0x00E0) = .next t ∧ t.run ≠ .faulted) ∧ (0 < 32 ∧ 0 < 64) ∧ 31 < 32 ∧ 63 < 64 :=
  ⟨⟨_, rfl, by decide, rfl, by decide⟩, by decide⟩

/-- FaultingTickNeitherRendersNorDecays and FaultsArePrecise: a fetch that faults and an instruction that does. -/
theorem witness_fault :
    (∃ t, (scripted { State.reset with pc := 0xFFF } [tickNow true]).nextAction.1 = .tick ⟨true, 0xA7, 640, 320⟩ ∧
      (scripted { State.reset with pc := 0xFFF } [tickNow true]).run ≠ .faulted ∧
      step (scripted { State.reset with pc := 0xFFF } [tickNow true]) = .next t ∧ t.run = .faulted ∧
      t.fault.cause = .fetchBounds) ∧
    ∃ t, (ready .reset 0x00EE true).nextAction.1 = .tick ⟨true, 0xA7, 640, 320⟩ ∧ (ready .reset 0x00EE true).run ≠ .faulted ∧
      step (ready .reset 0x00EE true) = .next t ∧ t.run = .faulted ∧ t.fault.cause = .stackUnderflow :=
  ⟨⟨_, rfl, by decide, rfl, rfl, rfl⟩, ⟨_, rfl, by decide, rfl, by decide, by decide⟩⟩

/-- InstructionsFaultExactlyAsTheTableSays: each condition at its boundary, and a fetch that faults. -/
theorem witness_fault_table :
    State.reset.run = .running ∧
    faultOf { State.reset with sp := 14 } (.callSubroutine 0) = none ∧
    faultOf { State.reset with sp := 15 } (.callSubroutine 0) = some (.stackOverflow, 0) ∧
    faultOf { State.reset with sp := 1 } .ret = none ∧ faultOf State.reset .ret = some (.stackUnderflow, 0) ∧
    faultOf { State.reset with i := 0xFFF } (.drawSprite 0 0 1) = none ∧
    faultOf { State.reset with i := 0xFFF } (.drawSprite 0 0 2) = some (.memReadBounds, 0x1000) ∧
    faultOf { State.reset with i := 0xFFFF } (.drawSprite 0 0 0) = none ∧
    faultOf { State.reset with i := 0xFF0 } (.loadRegs 15) = none ∧
    faultOf { State.reset with i := 0xFF1 } (.loadRegs 15) = some (.memReadBounds, 0x1000) ∧
    faultOf { State.reset with i := 0xFFD } (.storeBcd 0) = none ∧
    faultOf { State.reset with i := 0xFFE } (.storeBcd 0) = some (.memWriteBounds, 0x1000) ∧
    faultOf { State.reset with i := 0xFF0 } (.storeRegs 15) = none ∧
    faultOf { State.reset with i := 0x1005 } (.storeRegs 0) = some (.memWriteBounds, 0x1005) ∧
    (∃ t, (scripted { State.reset with pc := 0xFFF } [tickNow true]).nextAction.1 = .tick ⟨true, 0xA7, 640, 320⟩ ∧
      (scripted { State.reset with pc := 0xFFF } [tickNow true]).run = .running ∧
      step (scripted { State.reset with pc := 0xFFF } [tickNow true]) = .next t ∧ t.run = .faulted ∧
      (scripted { State.reset with pc := 0xFFF } [tickNow true]).pc.toNat ≥ 0x0FFF) :=
  ⟨rfl, by decide, by decide, by decide, by decide, by decide, by decide, by decide, by decide, by decide, by decide,
    by decide, by decide, by decide, ⟨_, rfl, rfl, rfl, rfl, by decide⟩⟩

/-- GeneralRegistersChangeOnlyByTheirWriters: a destination that changes, and VF as a flag that does. -/
theorem witness_general_registers :
    (∃ t, exec (.setImm 3 7) .reset = .next t ∧ t.getV 3 ≠ State.reset.getV 3) ∧
    ∃ t, exec (.subRegs 0 1) .reset = .next t ∧ t.getV 0xF ≠ State.reset.getV 0xF :=
  ⟨⟨_, rfl, by decide⟩, ⟨_, rfl, by decide⟩⟩

/-- ControlRegistersChangeOnlyByTheirWriters: each register does change under one of its writers. -/
theorem witness_control_registers :
    (∃ t, exec (.setIndex 0x300) .reset = .next t ∧ t.i ≠ State.reset.i) ∧
    (∃ t, exec (.loadRegs 2) (resetWith { Params.default with ldiIncrementsI := true }) = .next t ∧
      t.i ≠ (resetWith { Params.default with ldiIncrementsI := true }).i) ∧
    (∃ t, exec (.callSubroutine 0x300) .reset = .next t ∧ t.sp ≠ State.reset.sp ∧ ∃ j, t.getS j ≠ State.reset.getS j) ∧
    (∃ t, exec .ret { State.reset with sp := 1 } = .next t ∧ t.sp ≠ { State.reset with sp := 1 }.sp) ∧
    (∃ t, exec (.setDelay 0) (regs .reset [(0, 5)]) = .next t ∧ t.dt ≠ (regs .reset [(0, 5)]).dt) ∧
    ∃ t, exec (.setSound 0) (regs .reset [(0, 5)]) = .next t ∧ t.st ≠ (regs .reset [(0, 5)]).st :=
  ⟨⟨_, rfl, by decide⟩, ⟨_, rfl, by decide⟩, ⟨_, rfl, by decide, 1, by decide⟩, ⟨_, rfl, by decide⟩, ⟨_, rfl, by decide⟩,
    ⟨_, rfl, by decide⟩⟩

/-- DevicesAndMemoryChangeOnlyByTheirWriters: each does change under one of its writers. -/
theorem witness_devices_and_memory :
    (∃ t, exec (.drawSprite 0 0 1) .reset = .next t ∧ t.fb.cell 0 0 ≠ State.reset.fb.cell 0 0) ∧
    (∃ t, exec (.skipIfKey 0) { State.reset with keys := [3] } = .next t ∧ t.keys ≠ [3]) ∧
    (∃ t, exec (.loadKey 2) .reset = .next t ∧ t.run ≠ State.reset.run) ∧
    (∃ t, exec .ret .reset = .next t ∧ t.run ≠ State.reset.run) ∧
    (∃ t, exec (.storeBcd 0) (regs { State.reset with i := 0xFFD } [(0, 213)]) = .next t ∧
      t.memByte 0xFFF ≠ (regs { State.reset with i := 0xFFD } [(0, 213)]).memByte 0xFFF) ∧
    ∃ t, exec (.storeRegs 15) (regs { State.reset with i := 0xFF0 } [(0xF, 9)]) = .next t ∧
      t.memByte 0xFFF ≠ (regs { State.reset with i := 0xFF0 } [(0xF, 9)]).memByte 0xFFF :=
  ⟨⟨_, rfl, by decide⟩, ⟨_, rfl, by decide⟩, ⟨_, rfl, by decide⟩, ⟨_, rfl, by decide⟩, ⟨_, rfl, by decide⟩,
    ⟨_, rfl, by decide⟩⟩

/-- PcChangesOnlyByTransfersAndSkips: a fault, a transfer and a skip. -/
theorem witness_pc_changes :
    (∃ t, exec .ret .reset = .next t ∧ State.reset.run = .running ∧ t.run = .faulted) ∧
    (∃ t, exec (.jumpOffset 0xFFF 0xF) (regs .reset [(0, 0xFF)]) = .next t ∧ t.pc ≠ State.reset.pc) ∧
    ∃ t, exec (.skipIfEqImm 0 0) .reset = .next t ∧ t.pc ≠ State.reset.pc :=
  ⟨⟨_, rfl, rfl, rfl⟩, ⟨_, rfl, by decide⟩, ⟨_, rfl, by decide⟩⟩

/-- CallPushesTheReturnAddressOrFaults and ReturnPopsTheReturnAddressOrFaults, at their boundaries. -/
theorem witness_stack :
    { State.reset with sp := 14 }.sp.val < 15 ∧ { State.reset with sp := 15 }.sp.val = 15 ∧
    0 < { State.reset with sp := 1 }.sp.val ∧ State.reset.sp.val = 0 := by decide

/-- LogicInstructionsWorkBitByBit: the three instructions, both settings of the parameter, a destination that is not VF. -/
theorem witness_logic :
    ((Instr.orRegs 1 2 = .orRegs 1 2 ∧ or = or) ∧ (Instr.andRegs 1 2 = .andRegs 1 2 ∧ and = and) ∧
      (Instr.xorRegs 1 2 = .xorRegs 1 2 ∧ xor = xor)) ∧
    (State.reset).params.logicResetsVf = false ∧
    (resetWith { Params.default with logicResetsVf := true }).params.logicResetsVf = true ∧ (14 : RegIdx) ≠ 0xF :=
  ⟨⟨⟨rfl, rfl⟩, ⟨rfl, rfl⟩, ⟨rfl, rfl⟩⟩, rfl, rfl, by decide⟩

/-- ShiftsWriteTheBitShiftedOut: `v` under both settings of the parameter. -/
theorem witness_shifts :
    0x81 = (if (regs .reset [(1, 0x81), (2, 3)]).params.shiftUsesVy then (regs .reset [(1, 0x81), (2, 3)]).getV 2
      else (regs .reset [(1, 0x81), (2, 3)]).getV 1).toNat ∧
    3 = (if (regs (resetWith { Params.default with shiftUsesVy := true }) [(1, 0x81), (2, 3)]).params.shiftUsesVy
      then (regs .reset [(1, 0x81), (2, 3)]).getV 2 else (regs .reset [(1, 0x81), (2, 3)]).getV 1).toNat := by decide

/-- RandomMasksTheByteOfTheTick: a fetched `RND` at the last address. -/
theorem witness_random :
    (ready { State.reset with pc := 0xFFE } 0xC30F).nextAction.1 = .tick ⟨false, 0xA7, 640, 320⟩ ∧
    (ready { State.reset with pc := 0xFFE } 0xC30F).run = .running ∧
    (ready { State.reset with pc := 0xFFE } 0xC30F).pc.toNat + 1 < 4096 ∧
    (ready { State.reset with pc := 0xFFE } 0xC30F).memByte 0xFFE ++
      (ready { State.reset with pc := 0xFFE } 0xC30F).memByte 0xFFF = wordXkk 0xC 3 0x0F := by decide

/-- FlagSettersLeaveZeroOrOne. -/
theorem witness_flag_setters :
    ∃ t, writesFlag State.reset.params (.addRegs 0 1) = true ∧ State.reset.run = .running ∧
      exec (.addRegs 0 1) .reset = .next t ∧ t.run = .running := ⟨_, rfl, rfl, rfl, rfl⟩

/-- DrawXorsTheSpriteAndReportsCollisionOrFaults: no row, the last byte of memory, the byte after it; a collision and none. -/
theorem witness_draw :
    ((0 : Fin 16).val = 0) ∧ { State.reset with i := 0xFFE }.i.toNat + ((2 : Fin 16).val - 1) < 4096 ∧
    (0 < (2 : Fin 16).val ∧ { State.reset with i := 0xFFF }.i.toNat + ((2 : Fin 16).val - 1) ≥ 4096) ∧
    (spriteSets { State.reset with fb := State.reset.fb.set 0 ((Vector.replicate 64 false).set 0 true) } 0 0 1 0 0 = true ∧
      Framebuffer.cell (State.reset.fb.set 0 ((Vector.replicate 64 false).set 0 true)) 0 0 = true) ∧
    ¬∃ r c : Nat, spriteSets .reset 0 0 1 r c = true ∧ State.reset.fb.cell r c = true := by
  refine ⟨rfl, by decide, by decide, by decide, ?_⟩
  rintro ⟨r, c, -, h⟩
  exact absurd ((Framebuffer.cell_blank r c).symm.trans h) (by decide)

/-- DrawingTwiceRestoresTheFramebuffer. -/
theorem witness_draw_twice :
    ∃ t, State.reset.i.toNat + ((5 : Fin 16).val - 1) < 4096 ∧ exec (.drawSprite 0 1 5) .reset = .next t ∧
      t.getV 0 = State.reset.getV 0 ∧ t.getV 1 = State.reset.getV 1 := ⟨_, by decide, rfl, by decide, by decide⟩

/-- KeySkipsConsumeTheMostRecentKey and LoadKeyStoresOrWaits: no key, and some. -/
theorem witness_keys : State.reset.keys = [] ∧ { State.reset with keys := [2, 5] }.keys = [2] ++ [5] := by decide

/-- StoreBcdWritesThreeDigitsOrFaults, StoreRegsWritesTheRegistersOrFaults, LoadRegsReadsTheRegistersOrFaults and
StoreThenLoadRestoresTheRegisters: the last byte of memory, and the byte after it. -/
theorem witness_ranges :
    { State.reset with i := 0xFFD }.i.toNat + 2 < 4096 ∧ { State.reset with i := 0xFFE }.i.toNat + 2 ≥ 4096 ∧
    { State.reset with i := 0xFF0 }.i.toNat + (15 : RegIdx).val < 4096 ∧
    { State.reset with i := 0xFF1 }.i.toNat + (15 : RegIdx).val ≥ 4096 := by decide

/-- DigitAddressPointsAtItsGlyph: the highest digit, the font in place. -/
theorem witness_digit :
    ((regs .reset [(1, 15)]).getV 1).toNat < 16 ∧
    ∀ k : Fin 80, (regs .reset [(1, 15)]).memByte k.val = (regs .reset [(1, 15)]).params.font.get k := by
  refine ⟨by decide, fun k => ?_⟩
  exact resetByte_font k

/-- FetchSeesTheBytesJustStored. -/
theorem witness_fetch_sees :
    ∃ t, 1 ≤ (1 : RegIdx).val ∧ { State.reset with i := 0xFFE, pc := 0xFFE }.i = 0xFFE ∧
      { State.reset with i := 0xFFE, pc := 0xFFE }.pc.toNat + (1 : RegIdx).val < 4096 ∧
      exec (.storeRegs 1) { State.reset with i := 0xFFE, pc := 0xFFE } = .next t := ⟨_, by decide, rfl, by decide, rfl⟩

/-- DecodeUndoesEncode. -/
theorem witness_encode : Instr.wf (.jumpOffset 0xFFF 0xF) = true ∧ Instr.wf (.drawSprite 15 15 15) = true := by decide

/-- DecodeFailsExactlyOnTheseWords: class 0 under the low-byte parameter, and a failure. -/
theorem witness_class0 :
    (0x0FE0 : Word16).toNat / 4096 = 0 ∧ (0x0FE0 : Word16).toNat % 256 = 0xE0 ∧ (0x0FEE : Word16).toNat % 256 = 0xEE ∧
    { Params.default with class0LowbyteOnly := true }.class0LowbyteOnly = true ∧
    decode .default 0xFFFF = .decodeFailure 0xFFFF := by decide

/-- DecoderIsTheOpcodeMap: a word that matches a row and decodes to an instruction of it. -/
theorem witness_map :
    decode .default 0x8014 = .instr (.addRegs 0 1) ∧ (0x8014 : Word16) &&& maskOf .default (.addRegs 5 5) = matchOf (.addRegs 5 5) := by
  decide

/-- EveryStepKeepsTheInvariant and NoTransactionWritesTheParameters. -/
theorem witness_step_invariant : ∃ t, StateInv { State.reset with pc := 0xFFE } ∧ step { State.reset with pc := 0xFFE } = .next t :=
  ⟨_, ⟨Memory.wf_nil, by decide, by decide, by decide, by decide, rfl⟩, rfl⟩

/-- CanonicalMemoriesAreEqualWhenTheyReadEqual. -/
theorem witness_canonical :
    Memory.wf [(0x200, 7)] ∧ Memory.wf (Memory.write [] 0x200 7) ∧
    ∀ a, Memory.read [(0x200, 7)] a = (Memory.write [] 0x200 7).read a := ⟨by decide, by decide, fun _ => rfl⟩

/-- OnlyRandomReadsTheTickInputs. -/
theorem witness_not_random : ∀ x kk, Instr.addRegs 0 1 ≠ .randomAnd x kk := by intro x kk h; cases h

end Sys2Proof.Tests
end

section
/-! The reset state, register by register, and the statement about it (R53). -/

namespace Sys2Proof.Machine

/-- Memory lists nothing at reset, so every address reads as unlisted. -/
@[simp] theorem memByte_reset (a : Nat) : State.reset.memByte a = Memory.resetByte a := rfl

@[simp] theorem getV_reset (x : RegIdx) : State.reset.getV x = 0 := by
  simp [State.getV, State.reset, Vector.get_eq_getElem]

@[simp] theorem getS_reset (j : Fin 16) : State.reset.getS j = 0 := by
  simp [State.getS, State.reset, Vector.get_eq_getElem]

@[simp] theorem cell_reset (r c : Nat) : State.reset.fb.cell r c = false := Framebuffer.cell_blank r c

/-- Settles O1: memory from what unlisted addresses read as, the registers and cells from the lemmas above; the
other fields are those `State.reset` names. -/
theorem resetHoldsTheTableOfValues : Obligations.ResetHoldsTheTableOfValues := by
  refine ⟨fun k => ?font, fun a ha _ => ?aboveFont, getV_reset, rfl, rfl, getS_reset, rfl, rfl, rfl, cell_reset,
    rfl, rfl, rfl, rfl, rfl⟩
  case font => exact (memByte_reset k).trans (resetByte_font k)
  case aboveFont => exact (memByte_reset a).trans (resetByte_above_font ha)

end Sys2Proof.Machine
end

section
/-! What the masks of the opcode map (R95) keep of a word, and what a match under each says about the word's fields. -/

namespace Sys2Proof

theorem ofFin_fieldClass (w : Word16) : BitVec.ofFin (w := 4) (fieldClass w) = w.extractLsb' 12 4 := rfl

theorem ofFin_fieldN (w : Word16) : BitVec.ofFin (w := 4) (fieldN w) = w.extractLsb' 0 4 := rfl

theorem encodeXyn_zero (c : BitVec 4) : encodeXyn c 0 0 0 = encodeNnn c 0 :=
  BitVec.eq_of_toNat_eq (by simp [encodeXyn_toNat, encodeNnn_toNat])

/-- The rows that the class alone selects. -/
theorem and_classMask (w : Word16) : w &&& 0xF000 = encodeNnn (.ofFin (fieldClass w)) 0 := by
  refine BitVec.eq_of_getLsbD_eq fun k hk => ?_
  simp only [encodeNnn, ofFin_fieldClass, BitVec.getLsbD_append]
  interval_cases k <;> simp

/-- The rows that the class and `w[3:0]` select. -/
theorem and_classNMask (w : Word16) : w &&& 0xF00F = encodeXyn (.ofFin (fieldClass w)) 0 0 (fieldN w) := by
  refine BitVec.eq_of_getLsbD_eq fun k hk => ?_
  simp only [encodeXyn, ofFin_fieldClass, ofFin_fieldN, BitVec.getLsbD_append]
  interval_cases k <;> simp

/-- The rows that the class and `w[7:0]` select. -/
theorem and_classKkMask (w : Word16) : w &&& 0xF0FF = encodeXkk (.ofFin (fieldClass w)) 0 (fieldKk w) := by
  refine BitVec.eq_of_getLsbD_eq fun k hk => ?_
  simp only [encodeXkk, ofFin_fieldClass, fieldKk, BitVec.getLsbD_append]
  interval_cases k <;> simp

/-- The selector of class 0x0 under `P_CLASS0_LOWBYTE_ONLY` (R87). -/
theorem and_lowByteMask (w : Word16) : w &&& 0x00FF = encodeXkk 0 0 (fieldKk w) := by
  refine BitVec.eq_of_getLsbD_eq fun k hk => ?_
  simp only [encodeXkk, fieldKk, BitVec.getLsbD_append]
  interval_cases k <;> simp

/-! From a match to the fields. -/

theorem fieldClass_eq_of_match {w m : Word16} (h : w &&& 0xF000 = m) : fieldClass w = fieldClass m := by
  subst h
  simp only [Fin.ext_iff, fieldClass_val, and_classMask, encodeNnn_toNat, BitVec.toNat_ofFin]
  omega

theorem fieldN_eq_of_match {w m : Word16} (h : w &&& 0xF00F = m) :
    fieldClass w = fieldClass m ∧ fieldN w = fieldN m := by
  subst h
  simp only [Fin.ext_iff, fieldClass_val, fieldN_val, and_classNMask, encodeXyn_toNat, BitVec.toNat_ofFin, Fin.val_zero]
  omega

theorem fieldKk_eq_of_match {w m : Word16} (h : w &&& 0xF0FF = m) :
    fieldClass w = fieldClass m ∧ fieldKk w = fieldKk m := by
  subst h
  simp only [Fin.ext_iff, ← BitVec.toNat_inj, fieldClass_val, fieldKk_toNat, and_classKkMask, encodeXkk_toNat,
    BitVec.toNat_ofFin, Fin.val_zero]
  omega

/-- Both rows of class 0x0 have one mask, under either setting of `P_CLASS0_LOWBYTE_ONLY`. -/
theorem fieldClass_eq_of_class0_match {p : Params} {w m : Word16} (h : w &&& maskOf p .clearDisplay = m) :
    fieldClass w = fieldClass m := by
  rw [maskOf] at h
  split at h
  · exact (fieldKk_eq_of_match h).1
  · exact congrArg fieldClass (BitVec.and_allOnes.symm.trans h)

/-! From the fields to a match. -/

theorem match_of_fieldClass {w m : Word16} {c : Fin 16} (hc : fieldClass w = c) (hm : encodeNnn (.ofFin c) 0 = m) :
    w &&& 0xF000 = m := by
  rw [and_classMask, hc, hm]

theorem match_of_fieldN {w m : Word16} {c n : Fin 16} (hc : fieldClass w = c) (hn : fieldN w = n)
    (hm : encodeXyn (.ofFin c) 0 0 n = m) : w &&& 0xF00F = m := by
  rw [and_classNMask, hc, hn, hm]

theorem match_of_fieldKk {w m : Word16} {c : Fin 16} {kk : Byte} (hc : fieldClass w = c) (hkk : fieldKk w = kk)
    (hm : encodeXkk (.ofFin c) 0 kk = m) : w &&& 0xF0FF = m := by
  rw [and_classKkMask, hc, hkk, hm]

end Sys2Proof
end

section
/-! The decoder is the opcode map (R95): a word that decodes to an instruction matches its row, class by class; a word that
matches a row decodes to an instruction of it, mask by mask; so no word matches two rows. -/

namespace Sys2Proof

/-- Class 0x0 is its two rows of the map, under either setting of `P_CLASS0_LOWBYTE_ONLY` (R87, R95). -/
theorem decodeClass0_eq {w : Word16} (hc : fieldClass w = 0x0) (p : Params) :
    decodeClass0 p w =
      if w &&& maskOf p .clearDisplay = matchOf .clearDisplay then .instr .clearDisplay
      else if w &&& maskOf p .ret = matchOf .ret then .instr .ret
      else .decodeFailure w := by
  have hselector : (if p.class0LowbyteOnly then w &&& 0x00FF else w) = w &&& maskOf p .clearDisplay := by
    rw [maskOf]
    split
    · exact (and_lowByteMask w).trans (match_of_fieldKk hc rfl rfl).symm
    · exact BitVec.and_allOnes.symm
  rw [decodeClass0, hselector]
  rfl

/-! A decoded word matches its row. -/

theorem match_of_decodeClass0 {p : Params} {w : Word16} {i : Instr} (hc : fieldClass w = 0x0)
    (h : decodeClass0 p w = .instr i) : w &&& maskOf p i = matchOf i := by
  rw [decodeClass0_eq hc] at h
  split at h
  case isTrue hcls => cases h; exact hcls
  case isFalse =>
    split at h
    case isTrue hret => cases h; exact hret
    case isFalse => cases h

/-- Classes 0x5 and 0x9 match under the mask that `P_SKIPREG_STRICT` sets (R88). -/
theorem match_of_decodeSkipReg {p : Params} {w : Word16} {i j : Instr} (h : decodeSkipReg p i w = .instr j) :
    j = i ∧ w &&& (if p.skipRegStrict then 0xF00F else 0xF000) = encodeNnn (.ofFin (fieldClass w)) 0 := by
  unfold decodeSkipReg at h
  split at h
  case isTrue => cases h
  case isFalse hstrict =>
    cases h
    refine ⟨rfl, ?_⟩
    cases hp : p.skipRegStrict
    case false => exact and_classMask w
    case true =>
      have hn : fieldN w = 0 := by simpa [hp] using hstrict
      exact match_of_fieldN rfl hn (encodeXyn_zero _)

theorem match_of_decodeClass8 {p : Params} {w : Word16} {i : Instr} (hc : fieldClass w = 0x8)
    (h : decodeClass8 w = .instr i) : w &&& maskOf p i = matchOf i := by
  simp only [decodeClass8] at h
  split at h
  all_goals cases h
  all_goals next hn => exact match_of_fieldN hc hn rfl

theorem match_of_decodeClassE {p : Params} {w : Word16} {i : Instr} (hc : fieldClass w = 0xE)
    (h : decodeClassE w = .instr i) : w &&& maskOf p i = matchOf i := by
  simp only [decodeClassE] at h
  repeat' split at h
  all_goals cases h
  all_goals next hkk => exact match_of_fieldKk hc hkk rfl

theorem match_of_decodeClassF {p : Params} {w : Word16} {i : Instr} (hc : fieldClass w = 0xF)
    (h : decodeClassF w = .instr i) : w &&& maskOf p i = matchOf i := by
  simp only [decodeClassF] at h
  repeat' split at h
  all_goals cases h
  all_goals next hkk => exact match_of_fieldKk hc hkk rfl

theorem match_of_decode {p : Params} {w : Word16} {i : Instr} (h : decode p w = .instr i) :
    w &&& maskOf p i = matchOf i := by
  unfold decode at h
  split at h
  case h_1 hc => exact match_of_decodeClass0 hc h
  case h_6 hc | h_10 hc =>
    obtain ⟨rfl, hm⟩ := match_of_decodeSkipReg h
    exact hm.trans (by rw [hc]; rfl)
  case h_9 hc => exact match_of_decodeClass8 hc h
  case h_15 hc => exact match_of_decodeClassE hc h
  case h_16 hc => exact match_of_decodeClassF hc h
  -- The other classes are one row each, and the last arm is a decode failure.
  all_goals cases h
  all_goals next hc => exact match_of_fieldClass hc rfl

/-! A word that matches a row decodes to an instruction of that row. -/

theorem decodeSkipReg_of_match {p : Params} {w m : Word16}
    (h : w &&& (if p.skipRegStrict then 0xF00F else 0xF000) = m) (hm : fieldN m = 0) (i : Instr) :
    fieldClass w = fieldClass m ∧ decodeSkipReg p i w = .instr i := by
  rw [decodeSkipReg]
  cases hp : p.skipRegStrict <;> rw [hp] at h
  case false => exact ⟨fieldClass_eq_of_match h, rfl⟩
  case true =>
    obtain ⟨hc, hn⟩ := fieldN_eq_of_match h
    exact ⟨hc, by simp [hn, hm]⟩

theorem decode_of_match {p : Params} {w : Word16} {i : Instr} (h : w &&& maskOf p i = matchOf i) :
    ∃ j, decode p w = .instr j ∧ matchOf j = matchOf i := by
  cases i with
  | clearDisplay =>
    have hc : fieldClass w = 0x0 := fieldClass_eq_of_class0_match h
    exact ⟨.clearDisplay, by simp [decode, hc, decodeClass0_eq hc, h], rfl⟩
  | ret =>
    have hc : fieldClass w = 0x0 := fieldClass_eq_of_class0_match h
    have hne : w &&& maskOf p .clearDisplay ≠ matchOf .clearDisplay := fun hcls =>
      absurd (h.symm.trans hcls) (by decide)
    exact ⟨.ret, by simp [decode, hc, decodeClass0_eq hc, h, hne], rfl⟩
  | skipIfEqReg | skipIfNeReg =>
    rw [matchOf] at h
    obtain ⟨hc, hd⟩ := decodeSkipReg_of_match h rfl _
    simp only [decode, hc]
    exact ⟨_, hd, rfl⟩
  | setReg | orRegs | andRegs | xorRegs | addRegs | subRegs | shiftRight | subReversed | shiftLeft =>
    rw [matchOf] at h
    obtain ⟨hc, hn⟩ := fieldN_eq_of_match h
    simp only [decode, decodeClass8, hc, hn]
    exact ⟨_, rfl, rfl⟩
  | skipIfKey | skipIfNotKey | getDelay | loadKey | setDelay | setSound | addIndex | setIndexToDigit | storeBcd | storeRegs |
    loadRegs =>
    rw [matchOf] at h
    obtain ⟨hc, hkk⟩ := fieldKk_eq_of_match h
    simp only [decode, decodeClassE, decodeClassF, hc, hkk]
    exact ⟨_, rfl, rfl⟩
  | jump | callSubroutine | skipIfEqImm | skipIfNeImm | setImm | addImm | setIndex | jumpOffset | randomAnd | drawSprite =>
    rw [matchOf] at h
    have hc := fieldClass_eq_of_match h
    simp only [decode, hc]
    exact ⟨_, rfl, rfl⟩

/-- Settles O51: the two directions are `match_of_decode` and `decode_of_match`; the rows are disjoint because a word of two
rows decodes to an instruction of each, and the decoder is a function. -/
theorem decoderIsTheOpcodeMap : Obligations.DecoderIsTheOpcodeMap := by
  intro p w i
  refine ⟨match_of_decode, decode_of_match, fun j hi hj => ?_⟩
  obtain ⟨k, hk, hki⟩ := decode_of_match hi
  obtain ⟨l, hl, hlj⟩ := decode_of_match hj
  cases hk.symm.trans hl
  exact hki.symm.trans hlj

end Sys2Proof
end

section
/-! How an instruction can end (R103, R105, R197): in the run state it began in, in the wait for a key, or in the
block's one way to fault. -/

namespace Sys2Proof.Machine

/-- A bounds-checked instruction whose effect keeps the run state ends in it or faults. -/
theorem guardRange_run_or_raise (s : State) (c : Cause) (len : Nat) {e : State} (h : e.run = s.run) :
    (s.guardRange c len e).run = s.run ∨ ∃ a, s.guardRange c len e = s.raiseExec c a := by
  obtain ⟨-, he⟩ | ⟨-, -, hf⟩ := guardRange_cases s c len e
  · exact .inl (by rw [he, h])
  · exact .inr ⟨_, hf⟩

/-! The key instructions, by the queue (R193-R197). -/

theorem exec_skipIfKey_nil {s : State} (x : RegIdx) (h : s.keys = []) : exec (.skipIfKey x) s = .next s := by
  rw [exec, execSkipIfKey, keyPop_nil h]

theorem exec_skipIfKey_concat {s : State} (x : RegIdx) {ks : List KeyIdx} {k : KeyIdx} (h : s.keys = ks ++ [k]) :
    exec (.skipIfKey x) s = .next (State.skipIf { s with keys := ks } (decide (keyByte k = s.getV x))) := by
  rw [exec, execSkipIfKey, keyPop_concat h]

theorem exec_skipIfNotKey_nil {s : State} (x : RegIdx) (h : s.keys = []) : exec (.skipIfNotKey x) s = .next s := by
  rw [exec, execSkipIfNotKey, keyPop_nil h]

theorem exec_skipIfNotKey_concat {s : State} (x : RegIdx) {ks : List KeyIdx} {k : KeyIdx} (h : s.keys = ks ++ [k]) :
    exec (.skipIfNotKey x) s = .next (State.skipIf { s with keys := ks } (decide (keyByte k ≠ s.getV x))) := by
  rw [exec, execSkipIfNotKey, keyPop_concat h]

theorem exec_loadKey_nil {s : State} (x : RegIdx) (h : s.keys = []) :
    exec (.loadKey x) s = .next { s with run := .awaitingKey x } := by rw [exec, execLoadKey, keyPop_nil h]

theorem exec_loadKey_concat {s : State} (x : RegIdx) {ks : List KeyIdx} {k : KeyIdx} (h : s.keys = ks ++ [k]) :
    exec (.loadKey x) s = .next (State.setV { s with keys := ks } x (keyByte k)) := by
  rw [exec, execLoadKey, keyPop_concat h]

/-- Every instruction ends in a next state: of the run state it began in, of the wait that `LD Vx, K` begins, or of an
execution fault and nothing else. -/
theorem exec_cases (i : Instr) (s : State) :
    ∃ t, exec i s = .next t ∧
      (t.run = s.run ∨
        (∃ x, i = .loadKey x ∧ t = { s with run := .awaitingKey x }) ∨
        ∃ c a, t = s.raiseExec c a) := by
  cases i with
  | ret | callSubroutine =>
    refine ⟨_, rfl, ?_⟩
    split
    · exact .inr (.inr ⟨_, _, rfl⟩)
    · exact .inl rfl
  | drawSprite | storeBcd =>
    refine ⟨_, rfl, (guardRange_run_or_raise s _ _ ?_).imp_right fun hraise => .inr ⟨_, hraise⟩⟩
    rfl
  | storeRegs | loadRegs =>
    refine ⟨_, rfl, (guardRange_run_or_raise s _ _ ?_).imp_right fun hraise => .inr ⟨_, hraise⟩⟩
    exact (frame_afterTransfer _ _).run rfl
  | skipIfKey x =>
    obtain ⟨hkeys, -⟩ | ⟨ks, k, hkeys, -⟩ := keyPop_cases s
    · exact ⟨s, exec_skipIfKey_nil x hkeys, .inl rfl⟩
    · exact ⟨_, exec_skipIfKey_concat x hkeys, .inl ((frame_skipIf _ _).run rfl)⟩
  | skipIfNotKey x =>
    obtain ⟨hkeys, -⟩ | ⟨ks, k, hkeys, -⟩ := keyPop_cases s
    · exact ⟨s, exec_skipIfNotKey_nil x hkeys, .inl rfl⟩
    · exact ⟨_, exec_skipIfNotKey_concat x hkeys, .inl ((frame_skipIf _ _).run rfl)⟩
  | loadKey x =>
    obtain ⟨hkeys, -⟩ | ⟨ks, k, hkeys, -⟩ := keyPop_cases s
    · exact ⟨_, exec_loadKey_nil x hkeys, .inr (.inl ⟨x, rfl, rfl⟩)⟩
    · exact ⟨_, exec_loadKey_concat x hkeys, .inl rfl⟩
  | skipIfEqImm | skipIfNeImm | skipIfEqReg | skipIfNeReg => exact ⟨_, rfl, .inl ((frame_skipIf _ _).run rfl)⟩
  | orRegs | andRegs | xorRegs => exact ⟨_, rfl, .inl ((frame_writeLogic _ _ _).run rfl)⟩
  | _ => exact ⟨_, rfl, .inl rfl⟩

/-- An instruction that takes the core to `Faulted` does nothing but raise the fault (R105). -/
theorem exec_to_faulted {i : Instr} {s t : State} (h : exec i s = .next t) (hs : s.run ≠ .faulted)
    (ht : t.run = .faulted) : ∃ c a, t = s.raiseExec c a := by
  obtain ⟨u, hu, hcases⟩ := exec_cases i s
  cases hu.symm.trans h
  obtain hrun | ⟨x, -, rfl⟩ | hraise := hcases
  · exact absurd (hrun ▸ ht) hs
  · cases ht
  · exact hraise

end Sys2Proof.Machine
end

section
/-! The parts of a tick (40_execution_cycle.md): the state it begins in, what it does in each run state, and what the
render and the decay add to it; in terms of the state before the step. -/

namespace Sys2Proof.Machine

/-! The state in which a tick begins. -/

theorem frame_tickStart (s : State) (n : TickInputs) : Frame { env := true } s (s.nextAction.2.beginTick n) :=
  (frame_nextAction s).trans (frame_beginTick _ n)

@[simp] theorem nextAction_run (s : State) : s.nextAction.2.run = s.run := (frame_nextAction s).run rfl

@[simp] theorem nextAction_pc (s : State) : s.nextAction.2.pc = s.pc := (frame_nextAction s).pc rfl

@[simp] theorem nextAction_keys (s : State) : s.nextAction.2.keys = s.keys := (frame_nextAction s).keys rfl

/-- The word a tick fetches stands big-endian at `pc` (R102). -/
theorem fetchWord_tickStart (s : State) (n : TickInputs) :
    (s.nextAction.2.beginTick n).fetchWord = s.memByte s.pc.toNat ++ s.memByte (s.pc.toNat + 1) := by
  have hmem (a : Nat) : (s.nextAction.2.beginTick n).memByte a = s.memByte a :=
    (frame_tickStart s n).mem a (by simp)
  rw [State.fetchWord, beginTick_pc, nextAction_pc, hmem, hmem]; rfl

theorem frame_tickStart_advance (s : State) (n : TickInputs) :
    Frame { pc := true, env := true } s ((s.nextAction.2.beginTick n).setPc (s.pc + 2)) := by
  rw [beginTick_nextAction]
  exact frame_of_fields (fun _ _ => rfl) (fun _ _ => rfl) (fun _ _ => rfl) rfl

/-! What a step that is a tick does, by run state (R100). -/

theorem step_tick_faulted {s : State} {n : TickInputs} (ha : s.nextAction.1 = .tick n) (hr : s.run = .faulted) :
    step s = .next (s.nextAction.2.beginTick n) := by
  rw [step_tick ha, tick_faulted n ((nextAction_run s).trans hr)]

theorem step_tick_awaiting {s : State} {n : TickInputs} {x : RegIdx} (ha : s.nextAction.1 = .tick n)
    (hr : s.run = .awaitingKey x) : step s = .next ((s.nextAction.2.beginTick n).awaitKey x).finishTick := by
  rw [step_tick ha, tick_awaiting n ((nextAction_run s).trans hr)]

/-- A tick whose fetch leaves memory (R102): the tick ends at the fault (R110). -/
theorem step_tick_cannotFetch {s : State} {n : TickInputs} (ha : s.nextAction.1 = .tick n) (hr : s.run = .running)
    (hpc : ¬s.pc.toNat + 1 < 4096) : step s = .next (s.nextAction.2.beginTick n).raiseFetch := by
  rw [step_tick ha, tick_running n ((nextAction_run s).trans hr),
    instructionStep_fault (by simpa using hpc)]
  rfl

/-- A tick that can fetch executes the word at `pc` with `pc` advanced (R102, R103). -/
theorem step_tick_canFetch {s : State} {n : TickInputs} (ha : s.nextAction.1 = .tick n) (hr : s.run = .running)
    (hpc : s.pc.toNat + 1 < 4096) :
    step s = afterInstruction (((s.nextAction.2.beginTick n).setPc (s.pc + 2)).executeWord
      (s.memByte s.pc.toNat ++ s.memByte (s.pc.toNat + 1))) := by
  rw [step_tick ha, tick_running n ((nextAction_run s).trans hr),
    instructionStep_fetch (by simpa using hpc), fetchWord_tickStart, State.advance,
    beginTick_pc, nextAction_pc]

/-- A tick whose word decodes executes the instruction (R103). -/
theorem step_tick_instr {s : State} {n : TickInputs} {i : Instr} (ha : s.nextAction.1 = .tick n) (hr : s.run = .running)
    (hpc : s.pc.toNat + 1 < 4096)
    (hd : decode s.params (s.memByte s.pc.toNat ++ s.memByte (s.pc.toNat + 1)) = .instr i) :
    step s = afterInstruction (exec i ((s.nextAction.2.beginTick n).setPc (s.pc + 2))) := by
  rw [← (frame_tickStart_advance s n).params] at hd
  rw [step_tick_canFetch ha hr hpc, executeWord_instr hd]

/-- A tick whose word does not decode advances, renders and decays (R104). -/
theorem step_tick_decodeFailure {s : State} {n : TickInputs} {w : Word16} (ha : s.nextAction.1 = .tick n)
    (hr : s.run = .running) (hpc : s.pc.toNat + 1 < 4096)
    (hd : decode s.params (s.memByte s.pc.toNat ++ s.memByte (s.pc.toNat + 1)) = .decodeFailure w) :
    step s = .next ((s.nextAction.2.beginTick n).setPc (s.pc + 2)).finishTick := by
  rw [← (frame_tickStart_advance s n).params] at hd
  rw [step_tick_canFetch ha hr hpc, executeWord_failure hd, afterInstruction_next, State.endTick, if_neg]
  simp [hr]

/-! What the render and the decay add. -/

/-- A tick whose instruction step kept the timers and the framebuffer: its timers and its output follow from the state
before it, and nothing else is touched but what the instruction step touched (R183, R245). -/
theorem finishTick_of_frame {m : Touched} {s u : State} {n : TickInputs} (h : Frame m s u) (hdt : m.dt = false)
    (hst : m.st = false) (hfb : m.fb = false) (hn : u.env.inputs = n) :
    u.finishTick.dt.toNat = (if n.timerDue then s.dt.toNat - 1 else s.dt.toNat) ∧
    u.finishTick.st.toNat = (if n.timerDue then s.st.toNat - 1 else s.st.toNat) ∧
    u.finishTick.env.output = .render (renderCalls s.fb n.targetWidth n.targetHeight) ∧
    Frame { m with dt := true, st := true, env := true } s u.finishTick := by
  refine ⟨?dt, ?st, ?output, ?frame⟩
  case dt => rw [finishTick_dt, hn, h.dt hdt]
  case st => rw [finishTick_st, hn, h.st hst]
  case output => rw [finishTick_output, hn, h.fb hfb]
  case frame =>
    have hinstr : Frame { m with dt := true, st := true, env := true } s u := by
      apply h.mono <;> simp
    have hfinish : Frame { m with dt := true, st := true, env := true } u u.finishTick := by
      apply (frame_finishTick u).mono <;> simp
    exact hinstr.trans hfinish

/-- The completed wait touches the register, the queue and the run state (R107). -/
theorem frame_tickStart_keyTaken (s : State) (n : TickInputs) (x : RegIdx) (b : Byte) (ks : List KeyIdx) :
    Frame { v := [x], keys := true, run := true, env := true } s
      { (s.nextAction.2.beginTick n).setV x b with keys := ks, run := .running } := by
  rw [beginTick_nextAction]
  exact frame_of_fields (fun _ h => getV_setV_ne s b (List.ne_of_not_mem_cons h)) (fun _ _ => rfl) (fun _ _ => rfl) rfl

/-- Neither the completed nor the continued wait faults (R106, R107). -/
theorem awaitKey_run_ne_faulted {s : State} (x : RegIdx) (h : s.run ≠ .faulted) : (s.awaitKey x).run ≠ .faulted := by
  obtain ⟨hkeys, -⟩ | ⟨ks, k, hkeys, -⟩ := keyPop_cases s
  · rwa [awaitKey_nil x hkeys]
  · simp [awaitKey_concat x hkeys]

/-- A tick that ends in `Faulted` ended at the fault (R110). -/
theorem endTick_eq_self_of_faulted {s : State} (h : s.endTick.run = .faulted) : s.endTick = s := by
  by_cases hs : s.run = .faulted
  · rw [State.endTick, if_pos hs]
  · rw [State.endTick, if_neg hs] at h
    exact absurd (((frame_finishTick s).run rfl).symm.trans h) hs

/-- All that a tick which faults can do: raise the fetch fault, or the fault of its instruction with `pc` advanced, in the
state in which the tick began (R105, R110). -/
theorem step_tick_to_faulted {s t : State} {n : TickInputs} (ha : s.nextAction.1 = .tick n) (hs : s.run ≠ .faulted)
    (h : step s = .next t) (ht : t.run = .faulted) :
    t = (s.nextAction.2.beginTick n).raiseFetch ∨
      ∃ c a, t = ((s.nextAction.2.beginTick n).setPc (s.pc + 2)).raiseExec c a := by
  cases hr : s.run with
  | faulted => exact absurd hr hs
  | awaitingKey x =>
    cases (step_tick_awaiting ha hr).symm.trans h
    have hwait := awaitKey_run_ne_faulted (s := s.nextAction.2.beginTick n) x (by simpa using hs)
    exact absurd (((frame_finishTick _).run rfl).symm.trans ht) hwait
  | running =>
    by_cases hpc : s.pc.toNat + 1 < 4096
    · cases hd : decode s.params (s.memByte s.pc.toNat ++ s.memByte (s.pc.toNat + 1)) with
      | decodeFailure w =>
        cases (step_tick_decodeFailure ha hr hpc hd).symm.trans h
        exact absurd ((nextAction_run s).symm.trans ht) hs
      | instr i =>
        have hstep := step_tick_instr ha hr hpc hd
        obtain ⟨u, hu, -⟩ := exec_cases i ((s.nextAction.2.beginTick n).setPc (s.pc + 2))
        rw [hu, afterInstruction_next] at hstep
        cases hstep.symm.trans h
        have hend := endTick_eq_self_of_faulted ht
        rw [hend] at ht ⊢
        exact .inr (exec_to_faulted hu (by simpa using hs) ht)
    · cases (step_tick_cannotFetch ha hr hpc).symm.trans h
      exact .inl rfl

end Sys2Proof.Machine
end

section
/-! The statements about the execution cycle (40_execution_cycle.md). -/

namespace Sys2Proof.Machine

/-- Settles O8: the tick only latches its inputs, and they stand in the environment's side. -/
theorem tickInFaultedDoesNothing : Obligations.TickInFaultedDoesNothing := by
  intro s inp ha hr
  exact ⟨_, step_tick_faulted ha hr, beginTick_nextAction s inp, rfl⟩

/-- Settles O6: a fetch that leaves memory raises its fault in the state the tick began in; otherwise the tick is
`executeWord` and what follows it. -/
theorem tickFetchesAdvancesAndExecutes : Obligations.TickFetchesAdvancesAndExecutes := by
  intro s inp ha hr
  refine ⟨fun hpc => ?fetchFault, fun hpc w hw => ⟨fun i hd => ?instr, fun hd => ?failure⟩⟩
  case fetchFault =>
    refine ⟨_, step_tick_cannotFetch ha hr (by omega), rfl, by simp [State.raiseFetch, Config.memSize], rfl, ?_⟩
    rw [beginTick_nextAction]
    exact frame_of_fields (fun _ _ => rfl) (fun _ _ => rfl) (fun _ _ => rfl) rfl
  case instr =>
    subst hw
    rw [step_tick_instr ha hr hpc hd]
    cases exec i ((s.nextAction.2.beginTick inp).setPc (s.pc + 2)) <;> rfl
  case failure =>
    subst hw
    exact step_tick_decodeFailure ha hr hpc hd

/-- Settles O7: the tick leaves the advanced state, rendered and decayed. -/
theorem decodeFailureIsANoOp : Obligations.DecodeFailureIsANoOp := by
  intro s inp w ha hr hpc hd
  exact ⟨_, step_tick_decodeFailure ha hr hpc hd, rfl,
    finishTick_of_frame (frame_tickStart_advance s inp) rfl rfl rfl rfl⟩

/-- Settles O10: with an empty queue the wait leaves the state the tick began in, rendered and decayed. -/
theorem waitingTickWithNoKeyOnlyRendersAndDecays : Obligations.WaitingTickWithNoKeyOnlyRendersAndDecays := by
  intro s inp x ha hr hk
  have hkeys : (s.nextAction.2.beginTick inp).keys = [] := (nextAction_keys s).trans hk
  have hstep := step_tick_awaiting ha hr
  rw [awaitKey_nil x hkeys] at hstep
  exact ⟨_, hstep, (nextAction_run s).trans hr, finishTick_of_frame (frame_tickStart s inp) rfl rfl rfl rfl⟩

/-- Settles O11: with `ks ++ [k]` queued the wait takes `k` into `V[x]`; then the tick renders and decays. -/
theorem waitingTickWithAKeyCompletesTheWait : Obligations.WaitingTickWithAKeyCompletesTheWait := by
  intro s inp x ks k ha hr hk
  have hkeys : (s.nextAction.2.beginTick inp).keys = ks ++ [k] := (nextAction_keys s).trans hk
  have hstep := step_tick_awaiting ha hr
  rw [awaitKey_concat x hkeys] at hstep
  have hVx : (((s.nextAction.2.beginTick inp).setV x (keyByte k)).getV x).toNat = k.val := by
    rw [getV_setV_same, keyByte_toNat]
  exact ⟨_, hstep, hVx, rfl, rfl, finishTick_of_frame (frame_tickStart_keyTaken s inp x (keyByte k) ks) rfl rfl rfl rfl⟩

/-- Settles O14: raising a fault touches neither the timers nor the output, and the tick began with none. -/
theorem faultingTickNeitherRendersNorDecays : Obligations.FaultingTickNeitherRendersNorDecays := by
  intro s t inp ha hs h ht
  have hstart := frame_tickStart s inp
  obtain rfl | ⟨c, a, rfl⟩ := step_tick_to_faulted ha hs h ht <;>
    exact ⟨rfl, hstart.dt rfl, hstart.st rfl⟩

end Sys2Proof.Machine
end

section
/-! The fields of the words the spec lays out in plain numbers (R81, R82), and what the decoder makes of the words of
control flow. -/

namespace Sys2Proof

/-! Words as numbers, for a class of four bits. -/

theorem wordNnn_toNat {c : Nat} (hc : c < 16) (nnn : Addr12) : (wordNnn c nnn).toNat = c * 4096 + nnn.toNat := by
  rw [wordNnn, BitVec.toNat_ofNat]; omega

theorem wordXkk_toNat {c : Nat} (hc : c < 16) (x : RegIdx) (kk : Byte) :
    (wordXkk c x kk).toNat = c * 4096 + x.val * 256 + kk.toNat := by
  rw [wordXkk, BitVec.toNat_ofNat]; omega

theorem wordXyn_toNat {c : Nat} (hc : c < 16) (x y : RegIdx) (n : Fin 16) :
    (wordXyn c x y n).toNat = c * 4096 + x.val * 256 + y.val * 16 + n.val := by
  rw [wordXyn, BitVec.toNat_ofNat]; omega

/-! Format NNN. -/

@[simp] theorem fieldClass_wordNnn {c : Nat} (hc : c < 16) (nnn : Addr12) : fieldClass (wordNnn c nnn) = ⟨c, hc⟩ :=
  Fin.ext (by rw [fieldClass_val, wordNnn_toNat hc]; simp only; omega)

@[simp] theorem fieldNnn_wordNnn {c : Nat} (hc : c < 16) (nnn : Addr12) : fieldNnn (wordNnn c nnn) = nnn :=
  BitVec.eq_of_toNat_eq (by rw [fieldNnn_toNat, wordNnn_toNat hc]; omega)

@[simp] theorem fieldX_wordNnn {c : Nat} (hc : c < 16) (nnn : Addr12) : fieldX (wordNnn c nnn) = topNibble nnn :=
  Fin.ext (by rw [fieldX_val, topNibble_val, wordNnn_toNat hc]; omega)

/-! Format XKK. -/

@[simp] theorem fieldClass_wordXkk {c : Nat} (hc : c < 16) (x : RegIdx) (kk : Byte) :
    fieldClass (wordXkk c x kk) = ⟨c, hc⟩ :=
  Fin.ext (by rw [fieldClass_val, wordXkk_toNat hc]; simp only; omega)

@[simp] theorem fieldX_wordXkk {c : Nat} (hc : c < 16) (x : RegIdx) (kk : Byte) : fieldX (wordXkk c x kk) = x :=
  Fin.ext (by rw [fieldX_val, wordXkk_toNat hc]; omega)

@[simp] theorem fieldKk_wordXkk {c : Nat} (hc : c < 16) (x : RegIdx) (kk : Byte) : fieldKk (wordXkk c x kk) = kk :=
  BitVec.eq_of_toNat_eq (by rw [fieldKk_toNat, wordXkk_toNat hc]; omega)

/-! Format XYN. -/

@[simp] theorem fieldClass_wordXyn {c : Nat} (hc : c < 16) (x y : RegIdx) (n : Fin 16) :
    fieldClass (wordXyn c x y n) = ⟨c, hc⟩ :=
  Fin.ext (by rw [fieldClass_val, wordXyn_toNat hc]; simp only; omega)

@[simp] theorem fieldX_wordXyn {c : Nat} (hc : c < 16) (x y : RegIdx) (n : Fin 16) : fieldX (wordXyn c x y n) = x :=
  Fin.ext (by rw [fieldX_val, wordXyn_toNat hc]; omega)

@[simp] theorem fieldY_wordXyn {c : Nat} (hc : c < 16) (x y : RegIdx) (n : Fin 16) : fieldY (wordXyn c x y n) = y :=
  Fin.ext (by rw [fieldY_val, wordXyn_toNat hc]; omega)

@[simp] theorem fieldN_wordXyn {c : Nat} (hc : c < 16) (x y : RegIdx) (n : Fin 16) : fieldN (wordXyn c x y n) = n :=
  Fin.ext (by rw [fieldN_val, wordXyn_toNat hc]; omega)

/-! The words of control flow (R95). -/

theorem decode_ret (p : Params) : decode p 0x00EE = .instr .ret := by
  have hc : fieldClass 0x00EE = 0x0 := rfl
  simp only [decode, hc, decodeClass0]
  cases p.class0LowbyteOnly <;> rfl

theorem decode_jump (p : Params) (nnn : Addr12) : decode p (wordNnn 0x1 nnn) = .instr (.jump nnn) := by
  simp [decode]

theorem decode_callSubroutine (p : Params) (nnn : Addr12) :
    decode p (wordNnn 0x2 nnn) = .instr (.callSubroutine nnn) := by
  simp [decode]

theorem decode_jumpOffset (p : Params) (nnn : Addr12) :
    decode p (wordNnn 0xB nnn) = .instr (.jumpOffset nnn (topNibble nnn)) := by
  simp [decode]

theorem decode_skipIfEqImm (p : Params) (x : RegIdx) (kk : Byte) :
    decode p (wordXkk 0x3 x kk) = .instr (.skipIfEqImm x kk) := by
  simp [decode]

theorem decode_skipIfNeImm (p : Params) (x : RegIdx) (kk : Byte) :
    decode p (wordXkk 0x4 x kk) = .instr (.skipIfNeImm x kk) := by
  simp [decode]

theorem decodeSkipReg_eq (p : Params) (i : Instr) (w : Word16) :
    decodeSkipReg p i w = if p.skipRegStrict = true ∧ fieldN w ≠ 0 then .decodeFailure w else .instr i := by
  simp only [decodeSkipReg, Bool.and_eq_true, bne_iff_ne]

theorem decode_skipIfEqReg (p : Params) (x y : RegIdx) (n : Fin 16) :
    decode p (wordXyn 0x5 x y n) =
      if p.skipRegStrict = true ∧ n ≠ 0 then .decodeFailure (wordXyn 0x5 x y n) else .instr (.skipIfEqReg x y) := by
  simp [decode, decodeSkipReg_eq]

theorem decode_skipIfNeReg (p : Params) (x y : RegIdx) (n : Fin 16) :
    decode p (wordXyn 0x9 x y n) =
      if p.skipRegStrict = true ∧ n ≠ 0 then .decodeFailure (wordXyn 0x9 x y n) else .instr (.skipIfNeReg x y) := by
  simp [decode, decodeSkipReg_eq]

end Sys2Proof
end

section
/-! What calls, returns and skips do (41_control_flow.md R121, R122, R129), case by case. -/

namespace Sys2Proof.Machine

/-! Calls and returns, by the depth of the stack. -/

theorem exec_callSubroutine_of_lt {s : State} (nnn : Addr12) (h : s.sp.val < 15) :
    exec (.callSubroutine nnn) s = .next ((s.push s.pc).setPc (addr16 nnn)) := by
  have hne : s.sp ≠ 15 := fun e => absurd (congrArg Fin.val e) (Nat.ne_of_lt h)
  rw [exec, execCallSubroutine, if_neg hne]

theorem exec_callSubroutine_full {s : State} (nnn : Addr12) (h : s.sp.val = 15) :
    exec (.callSubroutine nnn) s = .next (s.raiseExec .stackOverflow 0) := by
  rw [exec, execCallSubroutine, if_pos (Fin.ext h)]

theorem exec_ret_of_pos {s : State} (h : 0 < s.sp.val) : exec .ret s = .next s.popToPc := by
  rw [exec, execRet, if_neg (Fin.pos_iff_ne_zero.mp h)]

theorem exec_ret_empty {s : State} (h : s.sp.val = 0) : exec .ret s = .next (s.raiseExec .stackUnderflow 0) := by
  rw [exec, execRet, if_pos (Fin.ext h)]

/-- A call touches the entry it pushes, `sp` and `pc` (R121). -/
theorem frame_push_setPc (s : State) (r a : Word16) :
    Frame { stack := [s.sp + 1], sp := true, pc := true } s ((s.push r).setPc a) := by
  have hpush : Frame { stack := [s.sp + 1], sp := true, pc := true } s (s.push r) := by
    apply (frame_push s r).mono <;> simp
  have hjump : Frame { stack := [s.sp + 1], sp := true, pc := true } (s.push r) ((s.push r).setPc a) := by
    apply (frame_setPc (s.push r) a).mono <;> simp
  exact hpush.trans hjump

/-! Skips, by their condition. -/

theorem skipIf_decide_pc (s : State) (c : Prop) [Decidable c] :
    (s.skipIf (decide c)).pc = if c then s.pc + 2 else s.pc := by
  simp only [skipIf_eq, decide_eq_true_eq]

theorem skipIf_decide_not_pc (s : State) (c : Prop) [Decidable c] :
    (s.skipIf (decide ¬c)).pc = if c then s.pc else s.pc + 2 := by
  rw [skipIf_decide_pc, ite_not]

end Sys2Proof.Machine
end

section
/-! The statements about control flow (41_control_flow.md). -/

namespace Sys2Proof.Machine

/-- Settles O22: by the depth of the stack; below 15, `sp + 1` does not wrap and is the entry pushed. -/
theorem callPushesTheReturnAddressOrFaults : Obligations.CallPushesTheReturnAddressOrFaults := by
  intro p s nnn
  refine ⟨decode_callSubroutine p nnn, fun hlt => ?call, fun hfull => ?overflow⟩
  case call =>
    have hsp : (s.sp + 1).val = s.sp.val + 1 := Fin.val_add_one_of_lt hlt
    have hentry : (s.push s.pc).getS (s.sp + 1) = s.pc := by rw [getS_push, if_pos rfl]
    exact ⟨_, exec_callSubroutine_of_lt nnn hlt, hsp, hentry, addr16_toNat nnn, frame_push_setPc s _ _⟩
  case overflow => exact ⟨_, exec_callSubroutine_full nnn hfull, faultsWith_raiseExec s .stackOverflow 0⟩

/-- Settles O23: by the depth of the stack; above 0, `sp - 1` does not wrap. -/
theorem returnPopsTheReturnAddressOrFaults : Obligations.ReturnPopsTheReturnAddressOrFaults := by
  intro p s
  refine ⟨decode_ret p, fun hpos => ?pop, fun hempty => ?underflow⟩
  case pop =>
    have hsp : (s.sp - 1).val + 1 = s.sp.val := by
      rw [Fin.val_sub_one_of_ne_zero (Fin.pos_iff_ne_zero.mp hpos), Nat.sub_add_cancel hpos]
    exact ⟨_, exec_ret_of_pos hpos, rfl, hsp, frame_popToPc s⟩
  case underflow => exact ⟨_, exec_ret_empty hempty, faultsWith_raiseExec s .stackUnderflow 0⟩

/-- Settles O26: the two words decode alike, and the two skips differ in the sense of the comparison. -/
theorem registerSkipsCompareTwoRegisters : Obligations.RegisterSkipsCompareTwoRegisters := by
  intro p s x y n
  exact ⟨decode_skipIfEqReg p x y n, decode_skipIfNeReg p x y n,
    ⟨_, rfl, skipIf_decide_pc s _, frame_skipIf s _⟩, ⟨_, rfl, skipIf_decide_not_pc s _, frame_skipIf s _⟩⟩

/-- Settles O21: the meaning is one `setPc`. -/
theorem jumpSetsPc : Obligations.JumpSetsPc := by
  intro p s nnn
  exact ⟨decode_jump p nnn, _, rfl, addr16_toNat nnn, frame_setPc s _⟩

/-- Settles O24: the target is a sum of 16 bits of a 12-bit and an 8-bit number. -/
theorem jumpOffsetAddsTheRegister : Obligations.JumpOffsetAddsTheRegister := by
  intro p s nnn x
  have htarget := jumpOffsetTarget_toNat s nnn x
  have hbound : (s.jumpOffsetTarget nnn x).toNat ≤ 0x10FE := by
    have hnnn := nnn.isLt
    have hoffset := (s.jumpOffsetOperand x).isLt
    omega
  exact ⟨decode_jumpOffset p nnn, topNibble_val nnn, _, rfl, htarget, hbound, frame_setPc s _⟩

/-- Settles O25: as for the comparison of two registers, with the immediate in place of the second. -/
theorem immediateSkipsCompareWithTheImmediate : Obligations.ImmediateSkipsCompareWithTheImmediate := by
  intro p s x kk
  exact ⟨decode_skipIfEqImm p x kk, decode_skipIfNeImm p x kk,
    ⟨_, rfl, skipIf_decide_pc s _, frame_skipIf s _⟩, ⟨_, rfl, skipIf_decide_not_pc s _, frame_skipIf s _⟩⟩

end Sys2Proof.Machine
end

section
/-! The words of register loads, arithmetic, logic, shifts and random (R95). -/

namespace Sys2Proof

theorem decode_setImm (p : Params) (x : RegIdx) (kk : Byte) : decode p (wordXkk 0x6 x kk) = .instr (.setImm x kk) := by
  simp [decode]

theorem decode_addImm (p : Params) (x : RegIdx) (kk : Byte) : decode p (wordXkk 0x7 x kk) = .instr (.addImm x kk) := by
  simp [decode]

theorem decode_randomAnd (p : Params) (x : RegIdx) (kk : Byte) :
    decode p (wordXkk 0xC x kk) = .instr (.randomAnd x kk) := by
  simp [decode]

/-- In class 8 the low nibble selects the instruction, under all parameters (R86). -/
theorem decode_class8 (p : Params) (x y : RegIdx) (n : Fin 16) :
    decode p (wordXyn 0x8 x y n) = decodeClass8 (wordXyn 0x8 x y n) := by
  simp [decode]

theorem decode_setReg (p : Params) (x y : RegIdx) : decode p (wordXyn 0x8 x y 0x0) = .instr (.setReg x y) := by
  simp [decode_class8, decodeClass8]

theorem decode_orRegs (p : Params) (x y : RegIdx) : decode p (wordXyn 0x8 x y 0x1) = .instr (.orRegs x y) := by
  simp [decode_class8, decodeClass8]

theorem decode_andRegs (p : Params) (x y : RegIdx) : decode p (wordXyn 0x8 x y 0x2) = .instr (.andRegs x y) := by
  simp [decode_class8, decodeClass8]

theorem decode_xorRegs (p : Params) (x y : RegIdx) : decode p (wordXyn 0x8 x y 0x3) = .instr (.xorRegs x y) := by
  simp [decode_class8, decodeClass8]

theorem decode_addRegs (p : Params) (x y : RegIdx) : decode p (wordXyn 0x8 x y 0x4) = .instr (.addRegs x y) := by
  simp [decode_class8, decodeClass8]

theorem decode_subRegs (p : Params) (x y : RegIdx) : decode p (wordXyn 0x8 x y 0x5) = .instr (.subRegs x y) := by
  simp [decode_class8, decodeClass8]

theorem decode_shiftRight (p : Params) (x y : RegIdx) :
    decode p (wordXyn 0x8 x y 0x6) = .instr (.shiftRight x y) := by
  simp [decode_class8, decodeClass8]

theorem decode_subReversed (p : Params) (x y : RegIdx) :
    decode p (wordXyn 0x8 x y 0x7) = .instr (.subReversed x y) := by
  simp [decode_class8, decodeClass8]

theorem decode_shiftLeft (p : Params) (x y : RegIdx) : decode p (wordXyn 0x8 x y 0xE) = .instr (.shiftLeft x y) := by
  simp [decode_class8, decodeClass8]

end Sys2Proof
end

section
/-! What the operations of the ALU leave (42_alu.md): result and flag as numbers, and the two ways they are written
(R33, R148). -/

namespace Sys2Proof.Machine

/-! Result and flag of each flag computation. -/

theorem flagByte_toNat (f : Bool) : (flagByte f).toNat = f.toNat := by cases f <;> rfl

theorem addWithCarry_result (a b : Byte) : (addWithCarry a b).1.toNat = (a.toNat + b.toNat) % 256 :=
  BitVec.toNat_ofNat ..

theorem addWithCarry_flag (a b : Byte) : flagByte (addWithCarry a b).2 = if a.toNat + b.toNat > 255 then 1 else 0 := by
  simp only [addWithCarry, flagByte, decide_eq_true_eq]

theorem subNotBorrow_result (a b : Byte) : (subNotBorrow a b).1.toNat = (256 + a.toNat - b.toNat) % 256 := by
  have hb := b.isLt
  have hborrow : 256 - b.toNat + a.toNat = 256 + a.toNat - b.toNat := by omega
  calc (a - b).toNat = (256 - b.toNat + a.toNat) % 256 := BitVec.toNat_sub a b
    _ = (256 + a.toNat - b.toNat) % 256 := by rw [hborrow]

theorem subNotBorrow_flag (a b : Byte) : flagByte (subNotBorrow a b).2 = if a.toNat ≥ b.toNat then 1 else 0 := by
  simp only [subNotBorrow, flagByte, decide_eq_true_eq, ge_iff_le]

theorem shiftRightOut_result (v : Byte) : (shiftRightOut v).1.toNat = v.toNat / 2 := by
  rw [shiftRightOut, BitVec.toNat_ushiftRight, Nat.shiftRight_one]

theorem shiftRightOut_flag (v : Byte) : (flagByte (shiftRightOut v).2).toNat = v.toNat % 2 := by
  rw [flagByte_toNat, shiftRightOut, BitVec.getLsbD, Nat.toNat_testBit, pow_zero, Nat.div_one]

theorem shiftLeftOut_result (v : Byte) : (shiftLeftOut v).1.toNat = v.toNat * 2 % 256 := by
  rw [shiftLeftOut, BitVec.toNat_shiftLeft, Nat.shiftLeft_eq]

/-- The high bit of a byte is its quotient by 128, which is below 2. -/
theorem shiftLeftOut_flag (v : Byte) : (flagByte (shiftLeftOut v).2).toNat = v.toNat / 128 := by
  have hv := v.isLt
  have hbit : v.toNat / 2 ^ 7 % 2 = v.toNat / 128 := by omega
  rw [flagByte_toNat, shiftLeftOut, BitVec.getLsbD, Nat.toNat_testBit, hbit]

/-! Result first, flag last (R33). -/

theorem getV_writeWithFlag_VF (s : State) (x : RegIdx) (r : Byte × Bool) :
    (s.writeWithFlag x r).getV VF = flagByte r.2 := by
  rw [getV_writeWithFlag, if_pos rfl]

theorem getV_writeWithFlag_dest (s : State) {x : RegIdx} (r : Byte × Bool) (hx : x ≠ VF) :
    (s.writeWithFlag x r).getV x = r.1 := by
  rw [getV_writeWithFlag, if_neg hx, if_pos rfl]

/-- `writeWithFlag` of a difference and its not-borrow (R147, R149). -/
theorem writeWithFlag_subNotBorrow (s : State) (x : RegIdx) (a b : Byte) :
    (x ≠ VF → ((s.writeWithFlag x (subNotBorrow a b)).getV x).toNat = (256 + a.toNat - b.toNat) % 256) ∧
    (s.writeWithFlag x (subNotBorrow a b)).getV VF = (if a.toNat ≥ b.toNat then 1 else 0) ∧
    Frame { v := [x, VF] } s (s.writeWithFlag x (subNotBorrow a b)) := by
  refine ⟨fun hx => ?difference, ?notBorrow, frame_writeWithFlag s x _⟩
  case difference => rw [getV_writeWithFlag_dest s _ hx, subNotBorrow_result]
  case notBorrow => rw [getV_writeWithFlag_VF, subNotBorrow_flag]

/-! The logic instructions, with and without `P_LOGIC_RESETS_VF` (R148). -/

/-- Each of the three writes one byte, which is the operation on every bit (R143, R144, R145). -/
theorem exec_logic_bits {i : Instr} {f : Bool → Bool → Bool} {x y : RegIdx} (s : State)
    (h : (i = .orRegs x y ∧ f = or) ∨ (i = .andRegs x y ∧ f = and) ∨ (i = .xorRegs x y ∧ f = xor)) :
    ∃ r : Byte, exec i s = .next (s.writeLogic x r) ∧
      ∀ b, r.getLsbD b = f ((s.getV x).getLsbD b) ((s.getV y).getLsbD b) := by
  obtain ⟨rfl, rfl⟩ | ⟨rfl, rfl⟩ | ⟨rfl, rfl⟩ := h
  · exact ⟨_, rfl, fun _ => BitVec.getLsbD_or⟩
  · exact ⟨_, rfl, fun _ => BitVec.getLsbD_and⟩
  · exact ⟨_, rfl, fun _ => BitVec.getLsbD_xor⟩

theorem writeLogic_eq_setV {s : State} (x : RegIdx) (r : Byte) (h : s.params.logicResetsVf = false) :
    s.writeLogic x r = s.setV x r := by
  simp only [State.writeLogic, h, Bool.false_eq_true, if_false]

theorem getV_writeLogic_VF {s : State} (x : RegIdx) (r : Byte) (h : s.params.logicResetsVf = true) :
    (s.writeLogic x r).getV VF = 0 := by
  rw [getV_writeLogic, if_pos ⟨h, rfl⟩]

theorem getV_writeLogic_dest (s : State) {x : RegIdx} (r : Byte) (hx : x ≠ VF) : (s.writeLogic x r).getV x = r := by
  rw [getV_writeLogic, if_neg fun e => hx e.2, if_pos rfl]

/-! The end of a tick, for the registers an instruction left. -/

@[simp] theorem getV_endTick (s : State) (x : RegIdx) : s.endTick.getV x = s.getV x := by
  by_cases h : s.run = .faulted
  · rw [State.endTick, if_pos h]
  · rw [State.endTick, if_neg h, (frame_finishTick s).v x List.not_mem_nil]

end Sys2Proof.Machine
end

section
/-! The statements about register loads, arithmetic, logic, shifts and random (42_alu.md). -/

namespace Sys2Proof.Machine

/-- Settles O28: the byte written is the operation bit by bit; without the parameter the write is one `setV`, with it
VF is written last. -/
theorem logicInstructionsWorkBitByBit : Obligations.LogicInstructionsWorkBitByBit := by
  intro p s x y
  refine ⟨decode_orRegs p x y, decode_andRegs p x y, decode_xorRegs p x y, fun i f hi => ?_⟩
  obtain ⟨r, hexec, hbits⟩ := exec_logic_bits s hi
  refine ⟨_, hexec, fun hkeep => ?keepsVF, fun hreset => ?resetsVF⟩
  case keepsVF =>
    rw [writeLogic_eq_setV x r hkeep]
    refine ⟨fun b _ => ?_, frame_setV s x r⟩
    rw [getV_setV_same, hbits]
  case resetsVF =>
    refine ⟨getV_writeLogic_VF x r hreset, fun hx b _ => ?_, frame_writeLogic s x r⟩
    rw [getV_writeLogic_dest s r hx, hbits]

/-- Settles O31: `v` is the operand the shifts read; the bit shifted out is its remainder by 2 or its quotient by 128. -/
theorem shiftsWriteTheBitShiftedOut : Obligations.ShiftsWriteTheBitShiftedOut := by
  intro p s x y v hv
  obtain rfl : v = (s.shiftOperand x y).toNat := hv
  refine ⟨decode_shiftRight p x y, decode_shiftLeft p x y,
    ⟨_, rfl, fun hx => ?_, ?_, frame_writeWithFlag s x _⟩, ⟨_, rfl, fun hx => ?_, ?_, frame_writeWithFlag s x _⟩⟩
  · rw [getV_writeWithFlag_dest s _ hx, shiftRightOut_result]
  · rw [getV_writeWithFlag_VF, shiftRightOut_flag]
  · rw [getV_writeWithFlag_dest s _ hx, shiftLeftOut_result]
  · rw [getV_writeWithFlag_VF, shiftLeftOut_flag]

/-- Settles O32: the tick latches its `rnd` before the instruction runs, and its end leaves the registers alone. -/
theorem randomMasksTheByteOfTheTick : Obligations.RandomMasksTheByteOfTheTick := by
  intro p s x kk
  refine ⟨decode_randomAnd p x kk, ⟨_, rfl, fun b _ => ?bits, frame_setV s x _⟩, fun inp ha hr hpc hw => ?tick⟩
  case bits => rw [getV_setV_same, BitVec.getLsbD_and]
  case tick =>
    have hd : decode s.params (s.memByte s.pc.toNat ++ s.memByte (s.pc.toNat + 1)) = .instr (.randomAnd x kk) :=
      hw ▸ decode_randomAnd s.params x kk
    refine ⟨_, step_tick_instr ha hr hpc hd, fun b _ => ?_⟩
    rw [getV_endTick, getV_setV_same, BitVec.getLsbD_and]
    rfl

/-- Settles O27: each meaning is one `setV`. -/
theorem loadsAndImmediateAddWriteOneRegister : Obligations.LoadsAndImmediateAddWriteOneRegister := by
  intro p s x y kk
  refine ⟨decode_setImm p x kk, decode_addImm p x kk, decode_setReg p x y,
    ⟨_, rfl, getV_setV_same s x _, frame_setV s x _⟩, ⟨_, rfl, ?sum, frame_setV s x _⟩,
    ⟨_, rfl, getV_setV_same s x _, frame_setV s x _⟩⟩
  case sum => rw [getV_setV_same, BitVec.toNat_add]

/-- Settles O29: `writeWithFlag` of the sum and its carry. -/
theorem addWritesTheSumAndTheCarry : Obligations.AddWritesTheSumAndTheCarry := by
  intro p s x y
  refine ⟨decode_addRegs p x y, _, rfl, fun hx => ?sum, ?carry, frame_writeWithFlag s x _⟩
  case sum => rw [getV_writeWithFlag_dest s _ hx, addWithCarry_result]
  case carry => rw [getV_writeWithFlag_VF, addWithCarry_flag]

/-- Settles O30: the two instructions differ in which register is the minuend. -/
theorem subtractionsWriteTheDifferenceAndNotBorrow : Obligations.SubtractionsWriteTheDifferenceAndNotBorrow := by
  intro p s x y
  exact ⟨decode_subRegs p x y, decode_subReversed p x y,
    ⟨_, rfl, writeWithFlag_subNotBorrow s x (s.getV x) (s.getV y)⟩,
    ⟨_, rfl, writeWithFlag_subNotBorrow s x (s.getV y) (s.getV x)⟩⟩

end Sys2Proof.Machine
end

section
/-! What every instruction leaves of the environment's side, and the state in which a tick that did not fault ends
(40_execution_cycle.md R100, R103). -/

namespace Sys2Proof.Machine

theorem afterTransfer_env (s : State) (x : RegIdx) : (s.afterTransfer x).env = s.env := (frame_afterTransfer s x).env rfl

theorem guardRange_env (s : State) (c : Cause) (len : Nat) {e : State} (h : e.env = s.env) :
    (s.guardRange c len e).env = s.env := by
  obtain ⟨-, he⟩ | ⟨-, -, hf⟩ := guardRange_cases s c len e
  · rw [he, h]
  · rw [hf, raiseExec_env]

/-- No instruction touches the environment's side: the inputs a tick latched are there until it ends. -/
theorem exec_env {i : Instr} {s t : State} (h : exec i s = .next t) : t.env = s.env := by
  cases i with
  | ret | callSubroutine => cases h; split <;> rfl
  | drawSprite | storeBcd => cases h; exact guardRange_env s _ _ rfl
  | storeRegs => cases h; exact guardRange_env s _ _ (by rw [afterTransfer_env, storeBytes_env])
  | loadRegs => cases h; exact guardRange_env s _ _ (by rw [afterTransfer_env, loadTransfer_env])
  | skipIfEqImm | skipIfNeImm | skipIfEqReg | skipIfNeReg => cases h; exact (frame_skipIf _ _).env rfl
  | orRegs | andRegs | xorRegs => cases h; exact (frame_writeLogic _ _ _).env rfl
  | skipIfKey x =>
    obtain ⟨hkeys, -⟩ | ⟨ks, k, hkeys, -⟩ := keyPop_cases s
    · cases (exec_skipIfKey_nil x hkeys).symm.trans h; rfl
    · cases (exec_skipIfKey_concat x hkeys).symm.trans h; exact (frame_skipIf _ _).env rfl
  | skipIfNotKey x =>
    obtain ⟨hkeys, -⟩ | ⟨ks, k, hkeys, -⟩ := keyPop_cases s
    · cases (exec_skipIfNotKey_nil x hkeys).symm.trans h; rfl
    · cases (exec_skipIfNotKey_concat x hkeys).symm.trans h; exact (frame_skipIf _ _).env rfl
  | loadKey x =>
    obtain ⟨hkeys, -⟩ | ⟨ks, k, hkeys, -⟩ := keyPop_cases s
    · cases (exec_loadKey_nil x hkeys).symm.trans h; rfl
    · cases (exec_loadKey_concat x hkeys).symm.trans h; rfl
  | _ => cases h; rfl

theorem awaitKey_env (s : State) (x : RegIdx) : (s.awaitKey x).env = s.env := by
  obtain ⟨hkeys, -⟩ | ⟨ks, k, hkeys, -⟩ := keyPop_cases s
  · rw [awaitKey_nil x hkeys]
  · rw [awaitKey_concat x hkeys, setV_env]

/-- An instruction step that did not fault is rendered and decayed (R100, R110). -/
theorem endTick_of_run_ne_faulted {s : State} (h : s.endTick.run ≠ .faulted) : s.endTick = s.finishTick := by
  rw [State.endTick, if_neg]
  intro hs
  rw [State.endTick, if_pos hs] at h
  exact h hs

/-- A tick that does not fault ends by rendering and decaying what its instruction step left, under the inputs it
latched (R100). -/
theorem step_tick_not_faulted {s t : State} {n : TickInputs} (ha : s.nextAction.1 = .tick n) (hs : s.run ≠ .faulted)
    (h : step s = .next t) (ht : t.run ≠ .faulted) : ∃ u : State, t = u.finishTick ∧ u.env.inputs = n := by
  cases hr : s.run with
  | faulted => exact absurd hr hs
  | awaitingKey x =>
    cases (step_tick_awaiting ha hr).symm.trans h
    exact ⟨_, rfl, by rw [awaitKey_env, beginTick_env]⟩
  | running =>
    by_cases hpc : s.pc.toNat + 1 < 4096
    · cases hd : decode s.params (s.memByte s.pc.toNat ++ s.memByte (s.pc.toNat + 1)) with
      | decodeFailure w =>
        cases (step_tick_decodeFailure ha hr hpc hd).symm.trans h
        exact ⟨_, rfl, rfl⟩
      | instr i =>
        have hstep := step_tick_instr ha hr hpc hd
        obtain ⟨u, hu, -⟩ := exec_cases i ((s.nextAction.2.beginTick n).setPc (s.pc + 2))
        rw [hu, afterInstruction_next] at hstep
        cases hstep.symm.trans h
        exact ⟨u, endTick_of_run_ne_faulted ht, by rw [exec_env hu, setPc_env, beginTick_env]⟩
    · cases (step_tick_cannotFetch ha hr hpc).symm.trans h
      exact absurd rfl ht

end Sys2Proof.Machine
end

section
/-! What the display instructions do (43_display.md): the words of `CLS` and `DRW`, the blit against the cells that the
sprite sets, the two ways `DRW` can end, and the first and the last call of the render sequence. -/

namespace Sys2Proof.Machine

theorem decode_clearDisplay (p : Params) : decode p 0x00E0 = .instr .clearDisplay := by
  have hc : fieldClass 0x00E0 = 0x0 := rfl
  simp only [decode, hc, decodeClass0]
  cases p.class0LowbyteOnly <;> rfl

theorem decode_drawSprite (p : Params) (x y : RegIdx) (n : Fin 16) :
    decode p (wordXyn 0xD x y n) = .instr (.drawSprite x y n) := by
  simp [decode]

theorem frame_fb (s : State) (f : Framebuffer) : Frame { fb := true } s { s with fb := f } :=
  frame_of_fields (fun _ _ => rfl) (fun _ _ => rfl) (fun _ _ => rfl) rfl

/-- The two writes of `DRW` touch the framebuffer and VF (R178). -/
theorem frame_fb_setV (s : State) (f : Framebuffer) (x : RegIdx) (b : Byte) :
    Frame { v := [x], fb := true } s (State.setV { s with fb := f } x b) :=
  frame_of_fields (fun _ h => getV_setV_ne { s with fb := f } b (List.ne_of_not_mem_cons h)) (fun _ _ => rfl)
    (fun _ _ => rfl) rfl

theorem memBytes_getElem? (s : State) (a : Nat) {len k : Nat} (h : k < len) :
    (s.memBytes a len)[k]? = some (s.memByte (a + k)) := by
  simp [State.memBytes, h]

/-- The bits the blit draws are the bits of the sprite in memory: row `r - V[y]` is the byte at `I + (r - V[y])`
(R172 to R175). -/
theorem drawnBit_memBytes (s : State) (x y : RegIdx) (n : Fin 16) (r c : Nat) :
    drawnBit (s.getV x).toNat (s.getV y).toNat (s.memBytes s.i.toNat n.val) r c = spriteSets s x y n r c := by
  rw [drawnBit, spriteBit, spriteSets, memBytes_length, ← Bool.and_assoc, ← Bool.decide_and]
  by_cases hrow : (s.getV y).toNat ≤ r ∧ r < (s.getV y).toNat + n.val
  · have hbyte := memBytes_getElem? s s.i.toNat (k := r - (s.getV y).toNat) (len := n.val) (by omega)
    rw [hbyte, Option.getD_some]
    simp only [hrow, and_assoc, Nat.lt_succ_iff]
  · simp only [← and_assoc, hrow, false_and, decide_false, Bool.false_and]

theorem spriteBlit_cell (s : State) (x y : RegIdx) (n : Fin 16) {r c : Nat} (hr : r < 32) (hc : c < 64) :
    (s.spriteBlit x y n).1.cell r c = xor (s.fb.cell r c) (spriteSets s x y n r c) := by
  rw [State.spriteBlit, blit_cell _ _ _ _ hr hc, drawnBit_memBytes]

theorem spriteBlit_collides_iff (s : State) (x y : RegIdx) (n : Fin 16) :
    (s.spriteBlit x y n).2 = true ↔ ∃ r c : Nat, spriteSets s x y n r c = true ∧ s.fb.cell r c = true := by
  simp only [State.spriteBlit, blit_collides_iff, drawnBit_memBytes]

theorem exec_drawSprite_inside {s : State} (x y : RegIdx) {n : Fin 16} (h : n.val = 0 ∨ s.i.toNat + (n.val - 1) < 4096) :
    exec (.drawSprite x y n) s =
      .next (State.setV { s with fb := (s.spriteBlit x y n).1 } VF (flagByte (s.spriteBlit x y n).2)) := by
  rw [exec, execDrawSprite, guardRange_inside _ _ (by omega)]

theorem exec_drawSprite_outside {s : State} (x y : RegIdx) {n : Fin 16}
    (h : 0 < n.val ∧ s.i.toNat + (n.val - 1) ≥ 4096) :
    exec (.drawSprite x y n) s = .next (s.raiseExec .memReadBounds (BitVec.ofNat 16 (max s.i.toNat 4096))) := by
  rw [exec, execDrawSprite, guardRange_outside _ _ (by omega) (by omega)]

/-! The calls around the cells (R183). -/

theorem renderCalls_first (fb : Framebuffer) (w h : Nat) : (renderCalls fb w h)[0]? = some .clear := by
  rw [renderCalls, List.cons_append, List.getElem?_cons_zero]

theorem renderCalls_last (fb : Framebuffer) (w h : Nat) : (renderCalls fb w h)[2049]? = some .present := by
  have hlen : (RenderCall.clear :: renderCells fb (w / Config.fbWidth) (h / Config.fbHeight)).length = 2049 := by
    rw [List.length_cons, renderCells_length]
  rw [renderCalls, ← hlen, List.getElem?_concat_length]

end Sys2Proof.Machine
end

section
/-! The statements about the display (43_display.md). -/

namespace Sys2Proof.Machine

/-- Settles O13: the tick's last steps render the framebuffer it leaves, and `renderCalls_cell` places every call. -/
theorem nonFaultingTickRendersEveryCell : Obligations.NonFaultingTickRendersEveryCell := by
  intro s t inp ha hs h ht
  obtain ⟨u, rfl, rfl⟩ := step_tick_not_faulted ha hs h ht
  have hfb : u.finishTick.fb = u.fb := (frame_finishTick u).fb rfl
  refine ⟨_, finishTick_output u, renderCalls_length .., renderCalls_first .., renderCalls_last .., fun r c hr hc => ?_⟩
  rw [renderCalls_cell u.fb _ _ hr hc, hfb, colourOf]

/-- Settles O36: inside memory the blit gives the cells and the collision; outside, the bounds check gives the fault. -/
theorem drawXorsTheSpriteAndReportsCollisionOrFaults : Obligations.DrawXorsTheSpriteAndReportsCollisionOrFaults := by
  intro p s x y n
  refine ⟨decode_drawSprite p x y n, fun hin => ?draws, fun hout => ?faults⟩
  case draws =>
    have hcollides := spriteBlit_collides_iff s x y n
    refine ⟨_, exec_drawSprite_inside x y hin, fun r c hr hc => spriteBlit_cell s x y n hr hc, fun hhit => ?hit,
      fun hmiss => ?miss, frame_fb_setV s _ VF _⟩
    case hit => rw [getV_setV_same, hcollides.mpr hhit]; rfl
    case miss => rw [getV_setV_same, Bool.eq_false_iff.mpr fun e => hmiss (hcollides.mp e)]; rfl
  case faults => exact ⟨_, exec_drawSprite_outside x y hout, faultsWith_raiseExec s .memReadBounds _⟩

/-- Settles O35: the framebuffer becomes the blank one, whose cells are all unlit. -/
theorem clearBlanksTheFramebuffer : Obligations.ClearBlanksTheFramebuffer := by
  intro p s
  exact ⟨decode_clearDisplay p, _, rfl, fun r c _ _ => Framebuffer.cell_blank r c, frame_fb s _⟩

end Sys2Proof.Machine
end

section
/-! What key input does (44_keys.md): the words of the key instructions, what each touches when a key is queued, and the
transactions that queue one (R190, R191). -/

namespace Sys2Proof.Machine

/-! The words (R95). -/

theorem decode_skipIfKey (p : Params) (x : RegIdx) : decode p (wordXkk 0xE x 0x9E) = .instr (.skipIfKey x) := by
  simp [decode, decodeClassE]

theorem decode_skipIfNotKey (p : Params) (x : RegIdx) :
    decode p (wordXkk 0xE x 0xA1) = .instr (.skipIfNotKey x) := by
  simp [decode, decodeClassE]

theorem decode_loadKey (p : Params) (x : RegIdx) : decode p (wordXkk 0xF x 0x0A) = .instr (.loadKey x) := by
  simp [decode, decodeClassF]

/-! What is touched when a key is taken from the queue. -/

/-- A key skip touches the queue and `pc` (R193, R194). -/
theorem frame_keys_skipIf (s : State) (ks : List KeyIdx) (c : Bool) :
    Frame { pc := true, keys := true } s (State.skipIf { s with keys := ks } c) := by
  rw [skipIf_eq]
  exact frame_of_fields (fun _ _ => rfl) (fun _ _ => rfl) (fun _ _ => rfl) rfl

/-- `LD Vx, K` touches the queue and its register (R197). -/
theorem frame_keys_setV (s : State) (ks : List KeyIdx) (x : RegIdx) (b : Byte) :
    Frame { v := [x], keys := true } s (State.setV { s with keys := ks } x b) :=
  frame_of_fields (fun _ h => getV_setV_ne { s with keys := ks } b (List.ne_of_not_mem_cons h)) (fun _ _ => rfl)
    (fun _ _ => rfl) rfl

theorem frame_run (s : State) (r : RunState) : Frame { run := true } s { s with run := r } :=
  frame_of_fields (fun _ _ => rfl) (fun _ _ => rfl) (fun _ _ => rfl) rfl

/-! `SKP` and `SKNP` with a key queued: the comparison of a key with all 8 bits of a register (R196). -/

theorem skipIf_keyByte_eq_pc (s : State) (k : KeyIdx) (b : Byte) :
    (s.skipIf (decide (keyByte k = b))).pc = if k.val = b.toNat then s.pc + 2 else s.pc := by
  simp only [skipIf_decide_pc, keyByte_eq_iff]

theorem skipIf_keyByte_ne_pc (s : State) (k : KeyIdx) (b : Byte) :
    (s.skipIf (decide (keyByte k ≠ b))).pc = if k.val = b.toNat then s.pc else s.pc + 2 := by
  simp only [skipIf_decide_not_pc, ne_eq, keyByte_eq_iff]

/-! The transactions that queue a key, in the state in which the host's script has moved on. -/

theorem keySymbol_mapped {s : State} {c : Char} {k : KeyIdx} (h : s.params.keymap.lookup c = some k) :
    s.keySymbol c = s.pushKey k := by
  rw [State.keySymbol, h]

theorem keySymbol_unmapped {s : State} {c : Char} (h : s.params.keymap.lookup c = none) :
    s.keySymbol c = s.answer .silent := by
  rw [State.keySymbol, h]

theorem step_keySymbol_mapped {s : State} {c : Char} {k : KeyIdx} {rest : List HostAction}
    (hhost : s.env.host = .keySymbol c :: rest) (h : s.params.keymap.lookup c = some k) :
    step s = .next (State.pushKey { s with env := { s.env with host := rest } } k) :=
  (step_cons hhost).trans (congrArg Host.Outcome.next (keySymbol_mapped h))

theorem step_keySymbol_unmapped {s : State} {c : Char} {rest : List HostAction}
    (hhost : s.env.host = .keySymbol c :: rest) (h : s.params.keymap.lookup c = none) :
    step s = .next (State.answer { s with env := { s.env with host := rest } } .silent) :=
  (step_cons hhost).trans (congrArg Host.Outcome.next (keySymbol_unmapped h))

theorem frame_env (s : State) (e : Env) : Frame { env := true } s { s with env := e } :=
  frame_of_fields (fun _ _ => rfl) (fun _ _ => rfl) (fun _ _ => rfl) rfl

theorem frame_env_pushKey (s : State) (e : Env) (k : KeyIdx) :
    Frame { keys := true, env := true } s (State.pushKey { s with env := e } k) :=
  frame_of_fields (fun _ _ => rfl) (fun _ _ => rfl) (fun _ _ => rfl) rfl

end Sys2Proof.Machine
end

section
/-! The statements about keys (44_keys.md). -/

namespace Sys2Proof.Machine

/-- Settles O5: no case of the run state arises, as `transact` asks for it only in a tick; a key symbol is, by KEYMAP, a
`push_key` or only an answer. -/
theorem pushKeyAppendsInEveryRunState : Obligations.PushKeyAppendsInEveryRunState := by
  refine ⟨fun s k rest hhost => ?pushKey, fun s c rest hhost => ⟨fun k hmapped => ?mapped, fun hunmapped => ?unmapped⟩⟩
  case pushKey => exact ⟨_, step_cons hhost, rfl, frame_env_pushKey s _ k⟩
  case mapped => exact ⟨_, step_keySymbol_mapped hhost hmapped, rfl, frame_env_pushKey s _ k⟩
  case unmapped => exact ⟨_, step_keySymbol_unmapped hhost hunmapped, (frame_env s _).trans (frame_answer _ _)⟩

/-- Settles O38: by the queue; with a key taken, the two skips differ in the sense of the comparison. -/
theorem keySkipsConsumeTheMostRecentKey : Obligations.KeySkipsConsumeTheMostRecentKey := by
  intro p s x
  refine ⟨decode_skipIfKey p x, decode_skipIfNotKey p x, fun hempty => ?empty, fun ks k hqueued => ?queued⟩
  case empty => exact ⟨⟨s, exec_skipIfKey_nil x hempty, .refl _ s⟩, ⟨s, exec_skipIfNotKey_nil x hempty, .refl _ s⟩⟩
  case queued =>
    have hkeys (c : Bool) : (State.skipIf { s with keys := ks } c).keys = ks := (frame_skipIf _ c).keys rfl
    exact ⟨⟨_, exec_skipIfKey_concat x hqueued, hkeys _, skipIf_keyByte_eq_pc _ k _, frame_keys_skipIf s ks _⟩,
      ⟨_, exec_skipIfNotKey_concat x hqueued, hkeys _, skipIf_keyByte_ne_pc _ k _, frame_keys_skipIf s ks _⟩⟩

/-- Settles O39: by the queue; the key's index fits the register. -/
theorem loadKeyStoresOrWaits : Obligations.LoadKeyStoresOrWaits := by
  intro p s x
  refine ⟨decode_loadKey p x, fun ks k hqueued => ?stores, fun hempty => ?waits⟩
  case stores =>
    refine ⟨_, exec_loadKey_concat x hqueued, ?_, rfl, frame_keys_setV s ks x _⟩
    rw [getV_setV_same, keyByte_toNat]
  case waits => exact ⟨_, exec_loadKey_nil x hempty, rfl, frame_run s _⟩

end Sys2Proof.Machine
end

section
/-! What the index, timer and transfer instructions do (45_index_timers_memory.md): their words, what each touches, and
the two ways each bounds-checked instruction can end (R66). -/

namespace Sys2Proof.Machine

/-! The words (R95). -/

theorem decode_setIndex (p : Params) (nnn : Addr12) : decode p (wordNnn 0xA nnn) = .instr (.setIndex nnn) := by
  simp [decode]

theorem decode_getDelay (p : Params) (x : RegIdx) : decode p (wordXkk 0xF x 0x07) = .instr (.getDelay x) := by
  simp [decode, decodeClassF]

theorem decode_setDelay (p : Params) (x : RegIdx) : decode p (wordXkk 0xF x 0x15) = .instr (.setDelay x) := by
  simp [decode, decodeClassF]

theorem decode_setSound (p : Params) (x : RegIdx) : decode p (wordXkk 0xF x 0x18) = .instr (.setSound x) := by
  simp [decode, decodeClassF]

theorem decode_addIndex (p : Params) (x : RegIdx) : decode p (wordXkk 0xF x 0x1E) = .instr (.addIndex x) := by
  simp [decode, decodeClassF]

theorem decode_setIndexToDigit (p : Params) (x : RegIdx) :
    decode p (wordXkk 0xF x 0x29) = .instr (.setIndexToDigit x) := by
  simp [decode, decodeClassF]

theorem decode_storeBcd (p : Params) (x : RegIdx) : decode p (wordXkk 0xF x 0x33) = .instr (.storeBcd x) := by
  simp [decode, decodeClassF]

theorem decode_storeRegs (p : Params) (x : RegIdx) : decode p (wordXkk 0xF x 0x55) = .instr (.storeRegs x) := by
  simp [decode, decodeClassF]

theorem decode_loadRegs (p : Params) (x : RegIdx) : decode p (wordXkk 0xF x 0x65) = .instr (.loadRegs x) := by
  simp [decode, decodeClassF]

/-! The timers (R212, R213). -/

theorem frame_dt (s : State) (b : Byte) : Frame { dt := true } s { s with dt := b } :=
  frame_of_fields (fun _ _ => rfl) (fun _ _ => rfl) (fun _ _ => rfl) rfl

theorem frame_st (s : State) (b : Byte) : Frame { st := true } s { s with st := b } :=
  frame_of_fields (fun _ _ => rfl) (fun _ _ => rfl) (fun _ _ => rfl) rfl

/-! Stored bytes, and the two ways `LD B, Vx` can end (R216). -/

theorem memByte_storeBytes_inside (s : State) (a : Nat) (us : List Byte) {k : Nat} (h : k < us.length) :
    (s.storeBytes a us).memByte (a + k) = us[k] :=
  Memory.read_writeList_inside s.mem a us k h

theorem exec_storeBcd_inside {s : State} (x : RegIdx) (h : s.i.toNat + 2 < 4096) :
    exec (.storeBcd x) s = .next (s.storeBytes s.i.toNat (bcdDigits (s.getV x))) := by
  rw [exec, execStoreBcd, guardRange_inside _ _ (by omega)]

theorem exec_storeBcd_outside {s : State} (x : RegIdx) (h : s.i.toNat + 2 ≥ 4096) :
    exec (.storeBcd x) s = .next (s.raiseExec .memWriteBounds (BitVec.ofNat 16 (max s.i.toNat 4096))) := by
  rw [exec, execStoreBcd, guardRange_outside _ _ (by omega) (by omega)]

/-! The bulk transfers (R217, R218, R219). -/

theorem exec_storeRegs_inside {s : State} (x : RegIdx) (h : s.i.toNat + x.val < 4096) :
    exec (.storeRegs x) s = .next ((s.storeBytes s.i.toNat (s.transferBytes x)).afterTransfer x) := by
  rw [exec, execStoreRegs, transferCount, guardRange_inside _ _ (by omega)]

theorem exec_storeRegs_outside {s : State} (x : RegIdx) (h : s.i.toNat + x.val ≥ 4096) :
    exec (.storeRegs x) s = .next (s.raiseExec .memWriteBounds (BitVec.ofNat 16 (max s.i.toNat 4096))) := by
  rw [exec, execStoreRegs, transferCount, guardRange_outside _ _ (by omega) (by omega)]

theorem exec_loadRegs_inside {s : State} (x : RegIdx) (h : s.i.toNat + x.val < 4096) :
    exec (.loadRegs x) s = .next ((s.loadTransfer x).afterTransfer x) := by
  rw [exec, execLoadRegs, transferCount, guardRange_inside _ _ (by omega)]

theorem exec_loadRegs_outside {s : State} (x : RegIdx) (h : s.i.toNat + x.val ≥ 4096) :
    exec (.loadRegs x) s = .next (s.raiseExec .memReadBounds (BitVec.ofNat 16 (max s.i.toNat 4096))) := by
  rw [exec, execLoadRegs, transferCount, guardRange_outside _ _ (by omega) (by omega)]

/-- `I` after a bulk transfer, as a number (R218). -/
theorem afterTransfer_i_toNat (s : State) (x : RegIdx) :
    (s.afterTransfer x).i.toNat = if s.params.ldiIncrementsI then (s.i.toNat + x.val + 1) % 65536 else s.i.toNat := by
  have hadvance : (s.i + BitVec.ofNat 16 (transferCount x)).toNat = (s.i.toNat + x.val + 1) % 65536 := by
    rw [transferCount, BitVec.toNat_add, BitVec.toNat_ofNat]; omega
  rw [afterTransfer_eq, ← hadvance]
  exact apply_ite ..

theorem memByte_afterTransfer (s : State) (x : RegIdx) (a : Nat) : (s.afterTransfer x).memByte a = s.memByte a :=
  (frame_afterTransfer s x).mem a (by simp)

theorem getV_afterTransfer (s : State) (x j : RegIdx) : (s.afterTransfer x).getV j = s.getV j :=
  (frame_afterTransfer s x).v j List.not_mem_nil

/-- A bulk store puts `V[j]` at `I + j` (R217). -/
theorem memByte_storeTransfer (s : State) {x j : RegIdx} (h : j ≤ x) :
    (s.storeBytes s.i.toNat (s.transferBytes x)).memByte (s.i.toNat + j.val) = s.getV j := by
  have hlen : j.val < (s.transferBytes x).length := by rw [transferBytes_length]; exact Nat.lt_succ_of_le h
  rw [memByte_storeBytes_inside s _ _ hlen, transferBytes_getElem s x j h]

/-- A bulk store touches the bytes it stores and `I` (R217, R218). -/
theorem frame_storeBytes_afterTransfer (s : State) (a : Nat) (us : List Byte) (x : RegIdx) :
    Frame { memBase := a, memLen := us.length, i := true } s ((s.storeBytes a us).afterTransfer x) := by
  have hstore : Frame { memBase := a, memLen := us.length, i := true } s (s.storeBytes a us) := by
    apply (frame_storeBytes s a us).mono <;> simp
  have hindex : Frame { memBase := a, memLen := us.length, i := true } (s.storeBytes a us)
      ((s.storeBytes a us).afterTransfer x) := by
    apply (frame_afterTransfer (s.storeBytes a us) x).mono <;> simp
  exact hstore.trans hindex

/-- A bulk load touches the registers it loads and `I` (R219, R218). -/
theorem frame_loadTransfer_afterTransfer (s : State) (x : RegIdx) :
    Frame { v := (List.finRange 16).filter fun j => j ≤ x, i := true } s ((s.loadTransfer x).afterTransfer x) := by
  have hload : Frame { v := (List.finRange 16).filter fun j => j ≤ x, i := true } s (s.loadTransfer x) := by
    apply (frame_loadTransfer s x).mono <;> simp
  have hindex : Frame { v := (List.finRange 16).filter fun j => j ≤ x, i := true } (s.loadTransfer x)
      ((s.loadTransfer x).afterTransfer x) := by
    apply (frame_afterTransfer (s.loadTransfer x) x).mono <;> simp
  exact hload.trans hindex

end Sys2Proof.Machine
end

section
/-! The statements about the index register, the timers and the transfers (45_index_timers_memory.md). -/

namespace Sys2Proof.Machine

/-- Settles O43: inside memory the bytes stored are the registers, and the advance of `I` reads no byte; outside, the
bounds check gives the fault. -/
theorem storeRegsWritesTheRegistersOrFaults : Obligations.StoreRegsWritesTheRegistersOrFaults := by
  intro p s x
  refine ⟨decode_storeRegs p x, fun hin => ?stores, fun hout => ?faults⟩
  case stores =>
    have hframe := frame_storeBytes_afterTransfer s s.i.toNat (s.transferBytes x) x
    rw [transferBytes_length] at hframe
    refine ⟨_, exec_storeRegs_inside x hin, fun j hj => ?_, afterTransfer_i_toNat _ x, hframe⟩
    rw [memByte_afterTransfer, memByte_storeTransfer s hj]
  case faults => exact ⟨_, exec_storeRegs_outside x hout, faultsWith_raiseExec s .memWriteBounds _⟩

/-- Settles O44: as for the store, with the registers up to `x` in place of the bytes. -/
theorem loadRegsReadsTheRegistersOrFaults : Obligations.LoadRegsReadsTheRegistersOrFaults := by
  intro p s x
  refine ⟨decode_loadRegs p x, fun hin => ?loads, fun hout => ?faults⟩
  case loads =>
    refine ⟨_, exec_loadRegs_inside x hin, fun j hj => ?reg, ?index, frame_loadTransfer_afterTransfer s x⟩
    case reg => rw [getV_afterTransfer, getV_loadTransfer, if_pos hj]
    case index => rw [afterTransfer_i_toNat, loadTransfer_i, loadTransfer_params]
  case faults => exact ⟨_, exec_loadRegs_outside x hout, faultsWith_raiseExec s .memReadBounds _⟩

/-- Settles O40: each meaning is one `setI`; only the sum of `ADD I, Vx` can wrap. -/
theorem indexInstructionsWriteOnlyI : Obligations.IndexInstructionsWriteOnlyI := by
  intro p s x nnn
  have hsum : (s.i + zext16 (s.getV x)).toNat = (s.i.toNat + (s.getV x).toNat) % 65536 := by
    rw [BitVec.toNat_add, zext16_toNat]
  exact ⟨decode_setIndex p nnn, decode_addIndex p x, decode_setIndexToDigit p x,
    ⟨_, rfl, addr16_toNat nnn, frame_setI s _⟩, ⟨_, rfl, hsum, frame_setI s _⟩,
    ⟨_, rfl, digitAddress_toNat _, frame_setI s _⟩⟩

/-- Settles O41: each meaning is one write of one byte. -/
theorem timerInstructionsMoveOneByte : Obligations.TimerInstructionsMoveOneByte := by
  intro p s x
  exact ⟨decode_getDelay p x, decode_setDelay p x, decode_setSound p x,
    ⟨_, rfl, getV_setV_same s x _, frame_setV s x _⟩, ⟨_, rfl, rfl, frame_dt s _⟩, ⟨_, rfl, rfl, frame_st s _⟩⟩

/-- Settles O42: inside memory each address reads its own digit, a number below 256; outside, the bounds check gives the
fault. -/
theorem storeBcdWritesThreeDigitsOrFaults : Obligations.StoreBcdWritesThreeDigitsOrFaults := by
  intro p s x
  refine ⟨decode_storeBcd p x, fun hin => ?stores, fun hout => ?faults⟩
  case stores =>
    have hdigit (k : Fin 3) := memByte_storeBytes_inside s s.i.toNat (bcdDigits (s.getV x)) k.isLt
    have hv := (s.getV x).isLt
    refine ⟨_, exec_storeBcd_inside x hin, ?hundreds, ?tens, ?ones, frame_storeBytes s _ (bcdDigits (s.getV x))⟩
    case hundreds => exact (congrArg BitVec.toNat (hdigit 0)).trans (Nat.mod_eq_of_lt (by omega))
    case tens => exact (congrArg BitVec.toNat (hdigit 1)).trans (Nat.mod_eq_of_lt (by omega))
    case ones => exact (congrArg BitVec.toNat (hdigit 2)).trans (Nat.mod_eq_of_lt (by omega))
  case faults => exact ⟨_, exec_storeBcd_outside x hout, faultsWith_raiseExec s .memWriteBounds _⟩

end Sys2Proof.Machine
end

section
/-! The instructions by the table of execution faults (R232): which fault each raises and in which states, and that the
fetch fault is not among them. -/

namespace Sys2Proof.Machine

/-- What leaves the run state and the record alone does not fault. -/
theorem Frame.not_faulted {m : Touched} {s t : State} (h : Frame m s t) (hs : s.run ≠ .faulted)
    (hrun : m.run = false := by rfl) (hfault : m.fault = false := by rfl) : t.run ≠ .faulted ∧ t.fault = s.fault :=
  ⟨h.run hrun ▸ hs, h.fault hfault⟩

/-- An instruction raises the fault its row names, never the fetch fault; one that no row names in this state does not fault
and leaves the record. -/
theorem exec_cases_faultOf (i : Instr) {s : State} (hs : s.run ≠ .faulted) :
    (∃ c a, faultOf s i = some (c, a) ∧ c ≠ .fetchBounds ∧ exec i s = .next (s.raiseExec c (BitVec.ofNat 16 a))) ∨
    (faultOf s i = none ∧ ∃ t, exec i s = .next t ∧ t.run ≠ .faulted ∧ t.fault = s.fault) := by
  cases i with
  | callSubroutine nnn =>
    by_cases hfull : s.sp.val = 15
    · exact .inl ⟨_, _, if_pos hfull, nofun, exec_callSubroutine_full nnn hfull⟩
    · exact .inr ⟨if_neg hfull, _, exec_callSubroutine_of_lt nnn (by omega), hs, rfl⟩
  | ret =>
    by_cases hempty : s.sp.val = 0
    · exact .inl ⟨_, _, if_pos hempty, nofun, exec_ret_empty hempty⟩
    · exact .inr ⟨if_neg hempty, _, exec_ret_of_pos (Nat.pos_of_ne_zero hempty), hs, rfl⟩
  | drawSprite x y n =>
    by_cases hout : 0 < n.val ∧ s.i.toNat + (n.val - 1) ≥ 4096
    · exact .inl ⟨_, _, if_pos hout, nofun, exec_drawSprite_outside x y hout⟩
    · exact .inr ⟨if_neg hout, _, exec_drawSprite_inside x y (by omega), hs, rfl⟩
  | loadRegs x =>
    by_cases hout : s.i.toNat + x.val ≥ 4096
    · exact .inl ⟨_, _, if_pos hout, nofun, exec_loadRegs_outside x hout⟩
    · exact .inr ⟨if_neg hout, _, exec_loadRegs_inside x (by omega), (frame_loadTransfer_afterTransfer s x).not_faulted hs⟩
  | storeBcd x =>
    by_cases hout : s.i.toNat + 2 ≥ 4096
    · exact .inl ⟨_, _, if_pos hout, nofun, exec_storeBcd_outside x hout⟩
    · exact .inr ⟨if_neg hout, _, exec_storeBcd_inside x (by omega), hs, rfl⟩
  | storeRegs x =>
    by_cases hout : s.i.toNat + x.val ≥ 4096
    · exact .inl ⟨_, _, if_pos hout, nofun, exec_storeRegs_outside x hout⟩
    · exact .inr ⟨if_neg hout, _, exec_storeRegs_inside x (by omega),
        (frame_storeBytes_afterTransfer s _ _ x).not_faulted hs⟩
  | skipIfKey x =>
    refine .inr ⟨rfl, ?_⟩
    obtain ⟨hkeys, -⟩ | ⟨ks, k, hkeys, -⟩ := keyPop_cases s
    · exact ⟨s, exec_skipIfKey_nil x hkeys, hs, rfl⟩
    · exact ⟨_, exec_skipIfKey_concat x hkeys, (frame_keys_skipIf s ks _).not_faulted hs⟩
  | skipIfNotKey x =>
    refine .inr ⟨rfl, ?_⟩
    obtain ⟨hkeys, -⟩ | ⟨ks, k, hkeys, -⟩ := keyPop_cases s
    · exact ⟨s, exec_skipIfNotKey_nil x hkeys, hs, rfl⟩
    · exact ⟨_, exec_skipIfNotKey_concat x hkeys, (frame_keys_skipIf s ks _).not_faulted hs⟩
  | loadKey x =>
    refine .inr ⟨rfl, ?_⟩
    obtain ⟨hkeys, -⟩ | ⟨ks, k, hkeys, -⟩ := keyPop_cases s
    · exact ⟨_, exec_loadKey_nil x hkeys, nofun, rfl⟩
    · exact ⟨_, exec_loadKey_concat x hkeys, hs, rfl⟩
  | skipIfEqImm | skipIfNeImm | skipIfEqReg | skipIfNeReg =>
    exact .inr ⟨rfl, _, rfl, (frame_skipIf _ _).not_faulted hs⟩
  | orRegs | andRegs | xorRegs => exact .inr ⟨rfl, _, rfl, (frame_writeLogic _ _ _).not_faulted hs⟩
  | _ => exact .inr ⟨rfl, _, rfl, hs, rfl⟩

end Sys2Proof.Machine
end

section
/-! How a tick ends (R100, R102, R110): what each of its parts leaves of the run state, and the tick of a word in memory,
which raises no fetch fault. -/

namespace Sys2Proof.Machine

@[simp] theorem endTick_run (s : State) : s.endTick.run = s.run := by
  rw [State.endTick]; split
  · rfl
  · exact (frame_finishTick s).run rfl

/-- The execution of a word faults, if at all, with an execution fault and nothing else (R104, R105). -/
theorem executeWord_cases (w : Word16) {s : State} (hs : s.run ≠ .faulted) :
    ∃ u, s.executeWord w = .next u ∧ (u.run ≠ .faulted ∨ ∃ c a, c ≠ .fetchBounds ∧ u = s.raiseExec c a) := by
  cases hd : decode s.params w with
  | decodeFailure v => exact ⟨s, executeWord_failure hd, .inl hs⟩
  | instr i =>
    rw [executeWord_instr hd]
    obtain ⟨c, a, -, hc, hexec⟩ | ⟨-, t, hexec, hrun, -⟩ := exec_cases_faultOf i hs
    · exact ⟨_, hexec, .inr ⟨c, _, hc, rfl⟩⟩
    · exact ⟨t, hexec, .inl hrun⟩

/-- A tick that can fetch does not fault, or it ends at an execution fault, with `pc` advanced (R102, R110). -/
theorem step_tick_canFetch_cases {s : State} {n : TickInputs} (ha : s.nextAction.1 = .tick n) (hr : s.run = .running)
    (hpc : s.pc.toNat + 1 < 4096) :
    ∃ t, step s = .next t ∧ (t.run ≠ .faulted ∨
      ∃ c a, c ≠ .fetchBounds ∧ t = ((s.nextAction.2.beginTick n).setPc (s.pc + 2)).raiseExec c a) := by
  obtain ⟨u, hu, hcases⟩ := executeWord_cases (s.memByte s.pc.toNat ++ s.memByte (s.pc.toNat + 1))
    (s := (s.nextAction.2.beginTick n).setPc (s.pc + 2)) (by simp [hr])
  refine ⟨u.endTick, by rw [step_tick_canFetch ha hr hpc, hu, afterInstruction_next], ?_⟩
  obtain hrun | ⟨c, a, hc, rfl⟩ := hcases
  · exact .inl (by rwa [endTick_run])
  · exact .inr ⟨c, a, hc, endTick_eq_self_of_faulted rfl⟩

/-- A tick takes the core to `Faulted` from `Running` alone: a wait does not fault (R106, R107). -/
theorem run_eq_running_of_step_tick_to_faulted {s t : State} {n : TickInputs} (ha : s.nextAction.1 = .tick n)
    (hs : s.run ≠ .faulted) (h : step s = .next t) (ht : t.run = .faulted) : s.run = .running := by
  cases hr : s.run with
  | running => rfl
  | faulted => exact absurd hr hs
  | awaitingKey x =>
    cases (step_tick_awaiting ha hr).symm.trans h
    have hwait := awaitKey_run_ne_faulted (s := s.nextAction.2.beginTick n) x (by simpa using hs)
    exact absurd (((frame_finishTick _).run rfl).symm.trans ht) hwait

/-! The environment's side through the instruction step: the latched inputs are there when the tick decays. -/

theorem executeWord_env {s u : State} {w : Word16} (h : s.executeWord w = .next u) : u.env = s.env := by
  cases hd : decode s.params w with
  | decodeFailure v => cases (executeWord_failure hd).symm.trans h; rfl
  | instr i => exact exec_env ((executeWord_instr hd).symm.trans h)

theorem instructionStep_env {s u : State} (h : s.instructionStep = .next u) : u.env = s.env := by
  by_cases hpc : s.pc.toNat + 1 < 4096
  · rw [executeWord_env ((instructionStep_fetch hpc).symm.trans h), advance_env]
  · cases (instructionStep_fault hpc).symm.trans h; rfl

/-- A tick ends its instruction step, under the inputs it latched (R100). -/
theorem step_of_afterInstructionStep {s u : State} {n : TickInputs} (ha : s.nextAction.1 = .tick n)
    (hu : AfterInstructionStep s n u) : step s = .next u.endTick ∧ u.env.inputs = n := by
  cases hr : s.run with
  | faulted => simp only [AfterInstructionStep, hr] at hu
  | awaitingKey x =>
    simp only [AfterInstructionStep, hr] at hu
    have hwait : u.run ≠ .faulted := hu ▸ awaitKey_run_ne_faulted x (by simp [hr])
    constructor
    · rw [step_tick_awaiting ha hr, ← hu, State.endTick, if_neg hwait]
    · rw [hu, awaitKey_env, beginTick_env]
  | running =>
    simp only [AfterInstructionStep, hr] at hu
    constructor
    · rw [step_tick ha, tick_running n ((nextAction_run s).trans hr), hu, afterInstruction_next]
    · rw [instructionStep_env hu, beginTick_env]

end Sys2Proof.Machine
end

section
/-! What the transactions other than ticks leave, of any state: `load` and the key symbols as updates of a few fields, and
the bytes that `load` and `construct` put into memory (R190, R191, R260, R264). -/

namespace Sys2Proof.Machine

theorem load_eq (s : State) (bytes : List Byte) :
    s.load bytes = { s with mem := (s.load bytes).mem, env := (s.load bytes).env } := by
  rw [State.load]; split <;> rfl

theorem keySymbol_eq (s : State) (c : Char) :
    s.keySymbol c = { s with keys := (s.keySymbol c).keys, env := (s.keySymbol c).env } := by
  rw [State.keySymbol]; split <;> rfl

theorem memBytes_storeBytes_same (s : State) (a : Nat) (us : List Byte) :
    (s.storeBytes a us).memBytes a us.length = us := by
  refine List.ext_getElem (memBytes_length ..) fun k _ hk => ?_
  rw [← memByte_storeBytes_inside s a us hk]
  simp [State.memBytes]

/-- An image that fits is read back whole (R265). -/
theorem memBytes_load (s : State) {bytes : List Byte} (h : bytes.length ≤ 3584) :
    (s.load bytes).memBytes 0x200 bytes.length = bytes := by
  rw [load_ok s (by omega)]
  exact memBytes_storeBytes_same s 0x200 bytes

theorem memByte_construct_font (s : State) (k : Fin 80) : s.construct.memByte k.val = s.params.font.get k :=
  (read_fontMemory s.params k.val).trans (dif_pos k.isLt)

theorem memByte_construct_above (s : State) {a : Nat} (h : 0x50 ≤ a) : s.construct.memByte a = 0 :=
  (read_fontMemory s.params a).trans (dif_neg (by omega))

/-- Every transaction but `construct`, performed in `Faulted`, keeps the run state and the record (R234). -/
theorem transact_keeps_fault {s : State} (hs : s.run = .faulted) {a : HostAction} (ha : a ≠ .construct) :
    ∃ t, s.transact a = .next t ∧ t.run = .faulted ∧ t.fault = s.fault := by
  cases a with
  | construct => exact absurd rfl ha
  | load bytes => exact ⟨_, rfl, by rw [load_eq]; exact ⟨hs, rfl⟩⟩
  | pushKey k => exact ⟨_, rfl, hs, rfl⟩
  | keySymbol c => exact ⟨_, rfl, by rw [keySymbol_eq]; exact ⟨hs, rfl⟩⟩
  | tick n => exact ⟨_, tick_faulted n hs, hs, rfl⟩

end Sys2Proof.Machine
end

section
/-! The statements about faults and the decay (60_exceptions.md). -/

namespace Sys2Proof.Machine

/-- Settles O9: one transaction at a time; the step performs it in a state that differs in the environment's side only. -/
theorem faultedKeepsTheFirstFaultUntilConstruct : Obligations.FaultedKeepsTheFirstFaultUntilConstruct := by
  intro s t hr h
  refine ⟨fun hnot => ?keeps, fun inp ha => ?tick, fun k hhost => ?pushKey, fun bytes hhost => ?load,
    fun hhost => ?construct⟩
  case keeps =>
    have ha : s.nextAction.1 ≠ .construct := fun e => by
      obtain ⟨rest, hrest⟩ := nextAction_not_tick e rfl
      exact hnot (by rw [hrest, List.head?_cons])
    obtain ⟨u, hu, hrun, hfault⟩ := transact_keeps_fault ((nextAction_run s).trans hr) ha
    cases hu.symm.trans h
    exact ⟨hrun, hfault.trans ((frame_nextAction s).fault rfl)⟩
  case tick =>
    cases (step_tick_faulted ha hr).symm.trans h
    exact beginTick_nextAction s inp
  case pushKey =>
    obtain ⟨rest, hrest⟩ := List.head?_eq_some_iff.mp hhost
    cases (step_cons hrest).symm.trans h
    rfl
  case load =>
    obtain ⟨rest, hrest⟩ := List.head?_eq_some_iff.mp hhost
    cases (step_cons hrest).symm.trans h
    exact ⟨load_eq _ bytes, memBytes_load _⟩
  case construct =>
    obtain ⟨rest, hrest⟩ := List.head?_eq_some_iff.mp hhost
    cases (step_cons hrest).symm.trans h
    exact ⟨rfl, memByte_construct_font _, fun a ha _ => memByte_construct_above _ ha⟩

/-- Settles O12: a tick that does not fault renders and decays what its instruction step left. -/
theorem nonFaultingTickDecaysBothTimersOnce : Obligations.NonFaultingTickDecaysBothTimersOnce := by
  intro s u t inp ha hu h ht
  obtain ⟨hstep, rfl⟩ := step_of_afterInstructionStep ha hu
  cases hstep.symm.trans h
  rw [endTick_of_run_ne_faulted ht]
  exact ⟨finishTick_dt u, finishTick_st u, frame_finishTick u⟩

/-- Settles O15: by the fetch. The fault is raised in the state in which the tick began, for an execution fault with `pc`
advanced, so that its `pc - 2` is the instruction's address. -/
theorem faultsArePrecise : Obligations.FaultsArePrecise := by
  intro s t inp ha hs h ht
  have hr := run_eq_running_of_step_tick_to_faulted ha hs h ht
  by_cases hpc : s.pc.toNat + 1 < 4096
  · obtain ⟨u, hu, hcases⟩ := step_tick_canFetch_cases ha hr hpc
    cases hu.symm.trans h
    obtain hrun | ⟨c, a, hc, rfl⟩ := hcases
    · exact absurd ht hrun
    · refine ⟨BitVec.add_sub_cancel .., ?_, (if_neg hc).symm⟩
      rw [beginTick_nextAction]
      rfl
  · cases (step_tick_cannotFetch ha hr hpc).symm.trans h
    refine ⟨nextAction_pc s, ?_, nextAction_pc s⟩
    rw [beginTick_nextAction]
    rfl

/-- Settles O16: the instructions by `exec_cases_faultOf`; the tick by whether the two bytes at `pc` lie in memory. -/
theorem instructionsFaultExactlyAsTheTableSays : Obligations.InstructionsFaultExactlyAsTheTableSays := by
  refine ⟨⟨rfl, rfl, rfl, rfl, rfl, rfl⟩, fun i s hr => ?instruction, fun s inp ha hr => ?tick⟩
  case instruction =>
    obtain ⟨c, a, hfault, -, hexec⟩ | ⟨hnone, t, hexec, hkeeps⟩ := exec_cases_faultOf i (s := s) (by simp [hr])
    · exact ⟨_, hexec, by rw [hfault]; exact faultsWith_raiseExec s c a⟩
    · exact ⟨t, hexec, by rw [hnone]; exact hkeeps⟩
  case tick =>
    by_cases hpc : s.pc.toNat + 1 < 4096
    · obtain ⟨t, hstep, hcases⟩ := step_tick_canFetch_cases ha hr hpc
      have hno : ¬(t.run = .faulted ∧ t.fault.cause = .fetchBounds) := by
        rintro ⟨hrun, hcause⟩
        obtain hrun' | ⟨c, a, hc, rfl⟩ := hcases
        · exact hrun' hrun
        · exact hc hcause
      exact ⟨t, hstep, iff_of_false hno (by omega), fun hge => by omega⟩
    · have haddr : (BitVec.ofNat 16 (max s.pc.toNat 4096)).toNat = max s.pc.toNat 4096 := by
        rw [BitVec.toNat_ofNat]; omega
      refine ⟨_, step_tick_cannotFetch ha hr hpc, iff_of_true ⟨rfl, rfl⟩ (by omega), fun _ => ⟨nextAction_pc s, ?_⟩⟩
      simpa [State.raiseFetch, Config.memSize] using haddr

end Sys2Proof.Machine
end

section
/-! The steps whose transaction is `load`: they perform it in the state in which the host's script has moved on (R263, R264). -/

namespace Sys2Proof.Machine

theorem step_load_overflow {s : State} {bytes : List Byte} {rest : List HostAction}
    (hhost : s.env.host = .load bytes :: rest) (h : 0x200 + bytes.length > 4096) :
    step s = .next (State.answer { s with env := { s.env with host := rest } } .loadOverflow) :=
  (step_cons hhost).trans (congrArg Host.Outcome.next (load_overflow _ h))

theorem step_load_ok {s : State} {bytes : List Byte} {rest : List HostAction}
    (hhost : s.env.host = .load bytes :: rest) (h : 0x200 + bytes.length ≤ 4096) :
    step s = .next ((State.storeBytes { s with env := { s.env with host := rest } } 0x200 bytes).answer .loadOk) :=
  (step_cons hhost).trans (congrArg Host.Outcome.next (load_ok _ h))

theorem frame_env_answer (s : State) (e : Env) (o : Output) :
    Frame { env := true } s (State.answer { s with env := e } o) :=
  (frame_env s e).trans (frame_answer _ o)

theorem frame_env_storeBytes_answer (s : State) (e : Env) (a : Nat) (us : List Byte) (o : Output) :
    Frame { memBase := a, memLen := us.length, env := true } s ((State.storeBytes { s with env := e } a us).answer o) :=
  frame_of_fields (fun _ _ => rfl) (fun _ _ => rfl) (fun _ h => Memory.read_writeList_outside _ h) rfl

end Sys2Proof.Machine
end

section
/-! The statements about `construct` and `load` (R260, R263, R264, R265). -/

namespace Sys2Proof.Machine

/-- Settles O2: memory as `construct` fills it, the other fields as in `State.reset`. That no other transaction leaves
`Faulted` is the first clause of O9. -/
theorem constructResetsAnyStateAndAloneLeavesFaulted : Obligations.ConstructResetsAnyStateAndAloneLeavesFaulted := by
  refine ⟨fun s rest hhost => ?resets, fun s t hs h ht => ?leaves⟩
  case resets =>
    exact ⟨_, step_cons hhost, memByte_construct_font _, fun a ha _ => memByte_construct_above _ ha, getV_reset, rfl, rfl,
      getS_reset, rfl, rfl, rfl, cell_reset, rfl, rfl, rfl, rfl, rfl, rfl⟩
  case leaves =>
    obtain ⟨hkeeps, -⟩ := faultedKeepsTheFirstFaultUntilConstruct s t hs h
    have hhead : s.env.host.head? = some .construct := not_not.mp fun hnot => ht (hkeeps hnot).1
    exact List.head?_eq_some_iff.mp hhead

/-- Settles O3: by whether the image fits; an image that fits is one run of stored bytes. -/
theorem loadCopiesTheImageOrChangesNothing : Obligations.LoadCopiesTheImageOrChangesNothing := by
  refine fun s bytes rest hhost => ⟨fun hover => ?overflow, fun hfits => ?ok⟩
  case overflow => exact ⟨_, step_load_overflow hhost hover, rfl, frame_env_answer s _ _⟩
  case ok =>
    exact ⟨_, step_load_ok hhost hfits, rfl, fun k hk => memByte_storeBytes_inside _ 0x200 bytes hk,
      frame_env_storeBytes_answer s _ 0x200 bytes _⟩

/-- Settles O4: the step performs the load, and an image that fits is read back whole. -/
theorem loadThenReadReturnsTheImage : Obligations.LoadThenReadReturnsTheImage := by
  intro s t bytes rest hhost hlen h
  cases (step_cons hhost).symm.trans h
  exact memBytes_load _ hlen

end Sys2Proof.Machine
end

section
/-! The encoder writes the words the spec lays out in plain numbers (R81), which decode to what was encoded (R95). -/

namespace Sys2Proof.Machine

theorem encodeNnn_eq_wordNnn (c : BitVec 4) (nnn : Addr12) : encodeNnn c nnn = wordNnn c.toNat nnn :=
  BitVec.eq_of_toNat_eq (by rw [encodeNnn_toNat, wordNnn_toNat c.isLt])

theorem encodeXkk_eq_wordXkk (c : BitVec 4) (x : RegIdx) (kk : Byte) : encodeXkk c x kk = wordXkk c.toNat x kk :=
  BitVec.eq_of_toNat_eq (by rw [encodeXkk_toNat, wordXkk_toNat c.isLt])

theorem encodeXyn_eq_wordXyn (c : BitVec 4) (x y n : Fin 16) : encodeXyn c x y n = wordXyn c.toNat x y n :=
  BitVec.eq_of_toNat_eq (by rw [encodeXyn_toNat, wordXyn_toNat c.isLt])

/-- Settles O48: every encoded word is one of the words whose decoding is known; the low nibble of classes 5 and 9 is
written 0, and the register of `JP V0, nnn` is the top nibble of its address. -/
theorem decodeUndoesEncode : Obligations.DecodeUndoesEncode := by
  intro p i hwf
  cases i with simp only [encode, encodeNnn_eq_wordNnn, encodeXkk_eq_wordXkk, encodeXyn_eq_wordXyn]
  | clearDisplay => exact decode_clearDisplay p
  | ret => exact decode_ret p
  | jump nnn => exact decode_jump p nnn
  | callSubroutine nnn => exact decode_callSubroutine p nnn
  | skipIfEqImm x kk => exact decode_skipIfEqImm p x kk
  | skipIfNeImm x kk => exact decode_skipIfNeImm p x kk
  | skipIfEqReg x y => exact (decode_skipIfEqReg p x y 0).trans (if_neg fun h => h.2 rfl)
  | setImm x kk => exact decode_setImm p x kk
  | addImm x kk => exact decode_addImm p x kk
  | setReg x y => exact decode_setReg p x y
  | orRegs x y => exact decode_orRegs p x y
  | andRegs x y => exact decode_andRegs p x y
  | xorRegs x y => exact decode_xorRegs p x y
  | addRegs x y => exact decode_addRegs p x y
  | subRegs x y => exact decode_subRegs p x y
  | shiftRight x y => exact decode_shiftRight p x y
  | subReversed x y => exact decode_subReversed p x y
  | shiftLeft x y => exact decode_shiftLeft p x y
  | skipIfNeReg x y => exact (decode_skipIfNeReg p x y 0).trans (if_neg fun h => h.2 rfl)
  | setIndex nnn => exact decode_setIndex p nnn
  | jumpOffset nnn x =>
    obtain rfl : x = topNibble nnn := of_decide_eq_true hwf
    exact decode_jumpOffset p nnn
  | randomAnd x kk => exact decode_randomAnd p x kk
  | drawSprite x y n => exact decode_drawSprite p x y n
  | skipIfKey x => exact decode_skipIfKey p x
  | skipIfNotKey x => exact decode_skipIfNotKey p x
  | getDelay x => exact decode_getDelay p x
  | loadKey x => exact decode_loadKey p x
  | setDelay x => exact decode_setDelay p x
  | setSound x => exact decode_setSound p x
  | addIndex x => exact decode_addIndex p x
  | setIndexToDigit x => exact decode_setIndexToDigit p x
  | storeBcd x => exact decode_storeBcd p x
  | storeRegs x => exact decode_storeRegs p x
  | loadRegs x => exact decode_loadRegs p x

end Sys2Proof.Machine
end

section
/-! What an instruction may change, for each instruction: the writers the spec lists (R31, R32, R34, R36, R39, R41 to R45,
R48, R71), as one frame; and what its fields say of each register and device. -/

namespace Sys2Proof.Machine

/-- What `exec i` may change in state `s`; every instruction that can fault may change the run state and the record. -/
def touchedBy (s : State) : Instr → Touched
  | .clearDisplay => { fb := true }
  | .ret => { sp := true, pc := true, run := true, fault := true }
  | .jump _ => { pc := true }
  | .callSubroutine _ => { stack := [s.sp + 1], sp := true, pc := true, run := true, fault := true }
  | .skipIfEqImm _ _ => { pc := true }
  | .skipIfNeImm _ _ => { pc := true }
  | .skipIfEqReg _ _ => { pc := true }
  | .setImm x _ => { v := [x] }
  | .addImm x _ => { v := [x] }
  | .setReg x _ => { v := [x] }
  | .orRegs x _ => { v := if s.params.logicResetsVf then [x, VF] else [x] }
  | .andRegs x _ => { v := if s.params.logicResetsVf then [x, VF] else [x] }
  | .xorRegs x _ => { v := if s.params.logicResetsVf then [x, VF] else [x] }
  | .addRegs x _ => { v := [x, VF] }
  | .subRegs x _ => { v := [x, VF] }
  | .shiftRight x _ => { v := [x, VF] }
  | .subReversed x _ => { v := [x, VF] }
  | .shiftLeft x _ => { v := [x, VF] }
  | .skipIfNeReg _ _ => { pc := true }
  | .setIndex _ => { i := true }
  | .jumpOffset _ _ => { pc := true }
  | .randomAnd x _ => { v := [x] }
  | .drawSprite _ _ _ => { v := [VF], fb := true, run := true, fault := true }
  | .skipIfKey _ => { pc := true, keys := true }
  | .skipIfNotKey _ => { pc := true, keys := true }
  | .getDelay x => { v := [x] }
  | .loadKey x => { v := [x], keys := true, run := true }
  | .setDelay _ => { dt := true }
  | .setSound _ => { st := true }
  | .addIndex _ => { i := true }
  | .setIndexToDigit _ => { i := true }
  | .storeBcd _ => { memBase := s.i.toNat, memLen := 3, run := true, fault := true }
  | .storeRegs x =>
    { memBase := s.i.toNat, memLen := x.val + 1, i := s.params.ldiIncrementsI, run := true, fault := true }
  | .loadRegs x =>
    { v := (List.finRange 16).filter fun j => j ≤ x, i := s.params.ldiIncrementsI, run := true, fault := true }

/-! What the key instructions can do, by the queue (R193 to R197). -/

/-- With no key the two skips do nothing; with one they take it and skip or not. -/
theorem exec_keySkip_cases {i : Instr} {x : RegIdx} {s t : State} (hi : i = .skipIfKey x ∨ i = .skipIfNotKey x)
    (h : exec i s = .next t) :
    (s.keys = [] ∧ t = s) ∨ ∃ ks k c, s.keys = ks ++ [k] ∧ t = State.skipIf { s with keys := ks } c := by
  obtain ⟨hkeys, -⟩ | ⟨ks, k, hkeys, -⟩ := keyPop_cases s <;> obtain rfl | rfl := hi
  · cases (exec_skipIfKey_nil x hkeys).symm.trans h; exact .inl ⟨hkeys, rfl⟩
  · cases (exec_skipIfNotKey_nil x hkeys).symm.trans h; exact .inl ⟨hkeys, rfl⟩
  · cases (exec_skipIfKey_concat x hkeys).symm.trans h; exact .inr ⟨ks, k, _, hkeys, rfl⟩
  · cases (exec_skipIfNotKey_concat x hkeys).symm.trans h; exact .inr ⟨ks, k, _, hkeys, rfl⟩

theorem exec_loadKey_cases {x : RegIdx} {s t : State} (h : exec (.loadKey x) s = .next t) :
    (s.keys = [] ∧ t = { s with run := .awaitingKey x }) ∨
      ∃ ks k, s.keys = ks ++ [k] ∧ t = State.setV { s with keys := ks } x (keyByte k) := by
  obtain ⟨hkeys, -⟩ | ⟨ks, k, hkeys, -⟩ := keyPop_cases s
  · cases (exec_loadKey_nil x hkeys).symm.trans h; exact .inl ⟨hkeys, rfl⟩
  · cases (exec_loadKey_concat x hkeys).symm.trans h; exact .inr ⟨ks, k, hkeys, rfl⟩

/-! The operations that a parameter decides touch what its setting says (R148, R218). -/

theorem frame_writeLogic_param (s : State) (x : RegIdx) (r : Byte) :
    Frame { v := if s.params.logicResetsVf then [x, VF] else [x] } s (s.writeLogic x r) := by
  cases h : s.params.logicResetsVf
  case false => rw [writeLogic_eq_setV x r h]; exact frame_setV s x r
  case true => exact frame_writeLogic s x r

theorem frame_afterTransfer_param (s : State) (x : RegIdx) :
    Frame { i := s.params.ldiIncrementsI } s (s.afterTransfer x) := by
  rw [afterTransfer_eq]
  refine frame_of_fields (fun _ _ => rfl) (fun _ _ => rfl) (fun _ _ => rfl) ?_
  cases h : s.params.ldiIncrementsI <;> rfl

/-- A bounds-checked instruction touches what its effect touches, or it faults (R66). -/
theorem frame_guardRange {m : Touched} {s e : State} (c : Cause) (len : Nat)
    (h : Frame { m with run := true, fault := true } s e) :
    Frame { m with run := true, fault := true } s (s.guardRange c len e) := by
  obtain ⟨-, he⟩ | ⟨-, -, hf⟩ := guardRange_cases s c len e
  · rwa [he]
  · rw [hf]; apply (frame_raiseExec s c _).mono <;> simp

/-- Every instruction changes at most what `touchedBy` names. -/
theorem exec_frame {i : Instr} {s t : State} (h : exec i s = .next t) : Frame (touchedBy s i) s t := by
  cases i with
  | clearDisplay => cases h; exact frame_fb s _
  | ret =>
    cases h; split
    · apply (frame_raiseExec s _ _).mono <;> simp [touchedBy]
    · apply (frame_popToPc s).mono <;> simp [touchedBy]
  | callSubroutine =>
    cases h; split
    · apply (frame_raiseExec s _ _).mono <;> simp [touchedBy]
    · apply (frame_push_setPc s _ _).mono <;> simp [touchedBy]
  | jump | jumpOffset => cases h; exact frame_setPc s _
  | skipIfEqImm | skipIfNeImm | skipIfEqReg | skipIfNeReg => cases h; exact frame_skipIf s _
  | setImm | addImm | setReg | randomAnd | getDelay => cases h; exact frame_setV s _ _
  | orRegs | andRegs | xorRegs => cases h; exact frame_writeLogic_param s _ _
  | addRegs | subRegs | subReversed | shiftRight | shiftLeft => cases h; exact frame_writeWithFlag s _ _
  | setIndex | addIndex | setIndexToDigit => cases h; exact frame_setI s _
  | setDelay => cases h; exact frame_dt s _
  | setSound => cases h; exact frame_st s _
  | skipIfKey x | skipIfNotKey x =>
    obtain ⟨-, rfl⟩ | ⟨ks, -, c, -, rfl⟩ := exec_keySkip_cases (x := x) (by simp) h
    · exact .refl _ t
    · exact frame_keys_skipIf s ks c
  | loadKey x =>
    obtain ⟨-, rfl⟩ | ⟨ks, k, -, rfl⟩ := exec_loadKey_cases h
    · apply (frame_run s _).mono <;> simp [touchedBy]
    · apply (frame_keys_setV s ks x _).mono <;> simp [touchedBy]
  | drawSprite =>
    cases h
    refine frame_guardRange (m := { v := [VF], fb := true }) _ _ ?_
    apply (frame_fb_setV s _ VF _).mono <;> simp
  | storeBcd x =>
    cases h
    refine frame_guardRange (m := { memBase := s.i.toNat, memLen := 3 }) _ _ ?_
    apply (frame_storeBytes s s.i.toNat (bcdDigits (s.getV x))).mono <;> simp [bcdDigits_length]
  | storeRegs x =>
    cases h
    refine frame_guardRange (m := { memBase := s.i.toNat, memLen := x.val + 1, i := s.params.ldiIncrementsI }) _ _ ?_
    refine .trans (t := s.storeBytes s.i.toNat (s.transferBytes x)) ?_ ?_
    · apply (frame_storeBytes s s.i.toNat (s.transferBytes x)).mono <;> simp [transferBytes_length]
    · apply (frame_afterTransfer_param _ x).mono <;> simp
  | loadRegs x =>
    cases h
    refine frame_guardRange
      (m := { v := (List.finRange 16).filter fun j => j ≤ x, i := s.params.ldiIncrementsI }) _ _ ?_
    refine .trans (t := s.loadTransfer x) ?_ ?_
    · apply (frame_loadTransfer s x).mono <;> simp
    · apply (frame_afterTransfer_param _ x).mono <;> simp

end Sys2Proof.Machine
end

section
/-! The statements about which instructions write what: what changed is named by `touchedBy` (R31, R32, R34, R36, R39, R41 to
R45, R48, R71). -/

namespace Sys2Proof.Machine

/-- The general registers of `touchedBy` are the destination and, for the flag setters, VF. -/
theorem mem_touchedBy_v {s : State} {i : Instr} {j : RegIdx} (hj : j ∈ (touchedBy s i).v) :
    writesAsDestination j i = true ∨ (j = 0xF ∧ writesFlag s.params i = true) := by
  have hdest {x : RegIdx} (h : j ∈ [x]) : decide (x = j) = true := decide_eq_true (List.mem_singleton.mp h).symm
  have hboth {x : RegIdx} (h : j ∈ [x, VF]) : decide (x = j) = true ∨ j = VF := by
    rw [List.mem_cons, List.mem_singleton] at h
    exact h.imp_left fun e => decide_eq_true e.symm
  cases i with
  | setImm | addImm | setReg | randomAnd | getDelay | loadKey => exact .inl (hdest hj)
  | addRegs | subRegs | shiftRight | subReversed | shiftLeft => exact (hboth hj).imp_right fun e => ⟨e, rfl⟩
  | orRegs | andRegs | xorRegs =>
    rw [touchedBy] at hj
    cases hp : s.params.logicResetsVf <;> rw [hp] at hj
    case false => exact .inl (hdest hj)
    case true => exact (hboth hj).imp_right fun e => ⟨e, hp⟩
  | drawSprite => exact .inr ⟨List.mem_singleton.mp hj, rfl⟩
  | loadRegs x => exact .inl (List.mem_filter.mp hj).2
  | _ => nomatch hj

/-- Settles O17: a register that changed is among those of `touchedBy`. -/
theorem generalRegistersChangeOnlyByTheirWriters : Obligations.GeneralRegistersChangeOnlyByTheirWriters := by
  intro i s t j h hne
  exact mem_touchedBy_v (not_not.mp fun hj => hne ((exec_frame h).v j hj))

/-- A call that changes `sp` adds 1 to it, and a return takes 1 away: neither wraps, as both would fault (R121, R122). -/
theorem sp_of_exec_callSubroutine {s t : State} {nnn : Addr12} (h : exec (.callSubroutine nnn) s = .next t)
    (hne : t.sp ≠ s.sp) : t.sp.val = s.sp.val + 1 := by
  by_cases hfull : s.sp.val = 15
  · cases (exec_callSubroutine_full nnn hfull).symm.trans h; exact absurd rfl hne
  · have hlt : s.sp.val < 15 := by omega
    cases (exec_callSubroutine_of_lt nnn hlt).symm.trans h
    exact Fin.val_add_one_of_lt hlt

theorem sp_of_exec_ret {s t : State} (h : exec .ret s = .next t) (hne : t.sp ≠ s.sp) : t.sp.val + 1 = s.sp.val := by
  by_cases hempty : s.sp.val = 0
  · cases (exec_ret_empty hempty).symm.trans h; exact absurd rfl hne
  · have hpos : 0 < s.sp.val := Nat.pos_of_ne_zero hempty
    cases (exec_ret_of_pos hpos).symm.trans h
    rw [popToPc_sp, Fin.val_sub_one_of_ne_zero (Fin.pos_iff_ne_zero.mp hpos), Nat.sub_add_cancel hpos]

/-- Settles O18: each register by the instructions whose `touchedBy` names it. -/
theorem controlRegistersChangeOnlyByTheirWriters : Obligations.ControlRegistersChangeOnlyByTheirWriters := by
  intro i s t h
  have hframe := exec_frame h
  refine ⟨fun hne => ?index, fun hne => ?sp, fun ⟨j, hne⟩ => ?stack, fun hne => ?delay, fun hne => ?sound⟩
  case index =>
    have hi : (touchedBy s i).i = true := Bool.of_not_eq_false fun hoff => hne (hframe.i hoff)
    cases i with
    | setIndex | addIndex | setIndexToDigit => trivial
    | storeRegs | loadRegs => exact hi
    | _ => nomatch hi
  case sp =>
    have hsp : (touchedBy s i).sp = true := Bool.of_not_eq_false fun hoff => hne (hframe.sp hoff)
    cases i with
    | callSubroutine => exact sp_of_exec_callSubroutine h hne
    | ret => exact sp_of_exec_ret h hne
    | _ => nomatch hsp
  case stack =>
    have hj : j ∈ (touchedBy s i).stack := not_not.mp fun hoff => hne (hframe.stack j hoff)
    cases i with
    | callSubroutine nnn => exact ⟨nnn, rfl⟩
    | _ => nomatch hj
  case delay =>
    have hdt : (touchedBy s i).dt = true := Bool.of_not_eq_false fun hoff => hne (hframe.dt hoff)
    cases i with
    | setDelay x => exact ⟨x, rfl⟩
    | _ => nomatch hdt
  case sound =>
    have hst : (touchedBy s i).st = true := Bool.of_not_eq_false fun hoff => hne (hframe.st hoff)
    cases i with
    | setSound x => exact ⟨x, rfl⟩
    | _ => nomatch hst

/-- An instruction that changes the key queue takes the most recent key from it (R192). -/
theorem keys_of_exec {i : Instr} {s t : State} (h : exec i s = .next t) (hne : t.keys ≠ s.keys) :
    ∃ k, s.keys = t.keys ++ [k] := by
  have hkeys : (touchedBy s i).keys = true := Bool.of_not_eq_false fun hoff => hne ((exec_frame h).keys hoff)
  cases i with
  | skipIfKey x | skipIfNotKey x =>
    obtain ⟨-, rfl⟩ | ⟨ks, k, c, hqueue, rfl⟩ := exec_keySkip_cases (x := x) (by simp) h
    · exact absurd rfl hne
    · have hskip : (State.skipIf { s with keys := ks } c).keys = ks := (frame_skipIf _ c).keys rfl
      exact ⟨k, by rw [hskip, hqueue]⟩
  | loadKey x =>
    obtain ⟨-, rfl⟩ | ⟨ks, k, hqueue, rfl⟩ := exec_loadKey_cases h
    · exact absurd rfl hne
    · exact ⟨k, hqueue⟩
  | _ => nomatch hkeys

/-- An instruction changes the run state by waiting for a key, with none queued, or by faulting (R48). -/
theorem run_of_exec {i : Instr} {s t : State} (h : exec i s = .next t) (hne : t.run ≠ s.run) :
    (∃ x, i = .loadKey x ∧ t.run = .awaitingKey x ∧ s.keys = []) ∨ t.run = .faulted := by
  obtain ⟨u, hu, hcases⟩ := exec_cases i s
  cases hu.symm.trans h
  obtain hsame | ⟨x, rfl, rfl⟩ | ⟨c, a, rfl⟩ := hcases
  · exact absurd hsame hne
  · obtain ⟨hnil, -⟩ | ⟨ks, k, -, htaken⟩ := exec_loadKey_cases h
    · exact .inl ⟨x, rfl, rfl, hnil⟩
    · exact absurd (congrArg State.run htaken) hne
  · exact .inr rfl

/-- Settles O19: the framebuffer, the queue and memory by the instructions whose `touchedBy` names them; the run state by the
ways an instruction can end. -/
theorem devicesAndMemoryChangeOnlyByTheirWriters : Obligations.DevicesAndMemoryChangeOnlyByTheirWriters := by
  intro i s t h
  have hframe := exec_frame h
  refine ⟨fun hne => ?framebuffer, fun hne => ⟨keys_of_exec h hne, ?keys⟩, run_of_exec h, fun a hne => ?memory⟩
  case framebuffer =>
    have hfb : (touchedBy s i).fb = true := Bool.of_not_eq_false fun hoff => hne (hframe.fb hoff)
    cases i with
    | clearDisplay => exact .inl rfl
    | drawSprite x y n => exact .inr ⟨x, y, n, rfl⟩
    | _ => nomatch hfb
  case keys =>
    have hkeys : (touchedBy s i).keys = true := Bool.of_not_eq_false fun hoff => hne (hframe.keys hoff)
    cases i with
    | skipIfKey x => exact ⟨x, .inl rfl⟩
    | skipIfNotKey x => exact ⟨x, .inr (.inl rfl)⟩
    | loadKey x => exact ⟨x, .inr (.inr rfl)⟩
    | _ => nomatch hkeys
  case memory =>
    have ha := not_not.mp fun hoff => hne (hframe.mem a hoff)
    cases i with
    | storeBcd | storeRegs => simp only [touchedBy] at ha; dsimp only; omega
    | _ => simp only [touchedBy] at ha; omega

/-- A skip that changes `pc` adds 2 to it (R129). -/
theorem skipIf_pc_of_ne {s : State} {c : Bool} (hne : (s.skipIf c).pc ≠ s.pc) : (s.skipIf c).pc = s.pc + 2 := by
  rw [skipIf_eq] at hne ⊢
  cases c
  · exact absurd rfl hne
  · rfl

/-- Settles O20: `touchedBy` names `pc` for the transfers and the skips alone, and a fault changes no more than the run state
and the record. -/
theorem pcChangesOnlyByTransfersAndSkips : Obligations.PcChangesOnlyByTransfersAndSkips := by
  refine ⟨fun i s t h hs ht => ?fault, fun i s t h hne => ?change⟩
  case fault =>
    obtain ⟨c, a, rfl⟩ := exec_to_faulted h (by simp [hs]) ht
    rfl
  case change =>
    have hpc : (touchedBy s i).pc = true := Bool.of_not_eq_false fun hoff => hne ((exec_frame h).pc hoff)
    cases i with
    | jump nnn => cases h; exact addr16_toNat nnn
    | jumpOffset nnn x => cases h; exact jumpOffsetTarget_toNat s nnn x
    | callSubroutine nnn =>
      by_cases hfull : s.sp.val = 15
      · cases (exec_callSubroutine_full nnn hfull).symm.trans h; exact absurd rfl hne
      · cases (exec_callSubroutine_of_lt nnn (by omega)).symm.trans h; exact addr16_toNat nnn
    | ret =>
      by_cases hempty : s.sp.val = 0
      · cases (exec_ret_empty hempty).symm.trans h; exact absurd rfl hne
      · cases (exec_ret_of_pos (Nat.pos_of_ne_zero hempty)).symm.trans h; rfl
    | skipIfEqImm | skipIfNeImm | skipIfEqReg | skipIfNeReg => cases h; exact skipIf_pc_of_ne hne
    | skipIfKey x | skipIfNotKey x =>
      obtain ⟨-, rfl⟩ | ⟨ks, -, c, -, rfl⟩ := exec_keySkip_cases (x := x) (by simp) h
      · exact absurd rfl hne
      · exact skipIf_pc_of_ne hne
    | _ => nomatch hpc

end Sys2Proof.Machine
end

section
/-! All that a step does, for a property of states that looks neither at the environment's side nor at the timers: it is kept
by every step when the transactions other than ticks, the wait for a key, the fetch and the instructions keep it (R6, R7,
R100). -/

namespace Sys2Proof.Machine

/-- What keeps `P` along every step: one field for each thing a transaction can do. -/
structure KeptByParts (P : State → Prop) : Prop where
  /-- The environment's side and the timers. -/
  outside : ∀ (s : State) (dt st : Byte) (e : Env), P s → P { s with dt := dt, st := st, env := e }
  /-- `construct`. -/
  construct : ∀ s : State, P s → P s.construct
  /-- The image of `load`. -/
  image : ∀ (s : State) (bytes : List Byte), 0x200 + bytes.length ≤ 4096 → P s → P (s.storeBytes 0x200 bytes)
  /-- The key queue. -/
  keys : ∀ (s : State) (ks : List KeyIdx), P s → P { s with keys := ks }
  /-- The end of the wait for a key (R107). -/
  keyTaken : ∀ (s : State) (x : RegIdx) (b : Byte), s.run = .awaitingKey x → P s → P { s.setV x b with run := .running }
  /-- A fetch that leaves memory. -/
  fetchFault : ∀ s : State, ¬s.pc.toNat + 1 < 4096 → P s → P s.raiseFetch
  /-- A fetch inside memory. -/
  fetch : ∀ s : State, s.pc.toNat + 1 < 4096 → P s → P s.advance
  /-- An instruction, in the state its fetch left. -/
  exec : ∀ (s t : State) (i : Instr), s.run = .running → s.pc.toNat + 1 < 4096 → P s →
    Machine.exec i s.advance = .next t → P t

namespace KeptByParts

variable {P : State → Prop} (hP : KeptByParts P)
include hP

theorem env {s : State} (e : Env) (h : P s) : P { s with env := e } := hP.outside s s.dt s.st e h

theorem finishTick {s : State} (h : P s) : P s.finishTick := by
  rw [finishTick_eq]; exact hP.outside s _ _ _ h

theorem endTick {s : State} (h : P s) : P s.endTick := by
  rw [State.endTick]; split
  · exact h
  · exact hP.finishTick h

theorem awaitKey {s : State} {x : RegIdx} (hr : s.run = .awaitingKey x) (h : P s) : P (s.awaitKey x) := by
  obtain ⟨hkeys, -⟩ | ⟨ks, k, hkeys, -⟩ := keyPop_cases s
  · rwa [awaitKey_nil x hkeys]
  · rw [awaitKey_concat x hkeys]
    exact hP.keys _ ks (hP.keyTaken s x (keyByte k) hr h)

theorem instructionStep {s t : State} (hr : s.run = .running) (h : P s) (hst : s.instructionStep = .next t) : P t := by
  by_cases hpc : s.pc.toNat + 1 < 4096
  · rw [instructionStep_fetch hpc] at hst
    cases hd : decode s.advance.params s.fetchWord with
    | decodeFailure w => cases (executeWord_failure hd).symm.trans hst; exact hP.fetch s hpc h
    | instr i => exact hP.exec s t i hr hpc h ((executeWord_instr hd).symm.trans hst)
  · cases (instructionStep_fault hpc).symm.trans hst
    exact hP.fetchFault s hpc h

theorem tick {s t : State} (n : TickInputs) (h : P s) (ht : s.tick n = .next t) : P t := by
  have hbegin : P (s.beginTick n) := hP.env _ h
  cases hr : s.run with
  | faulted => cases (tick_faulted n hr).symm.trans ht; exact hbegin
  | awaitingKey x =>
    cases (tick_awaiting n hr).symm.trans ht
    exact hP.finishTick (hP.awaitKey (s := s.beginTick n) hr hbegin)
  | running =>
    rw [tick_running n hr] at ht
    cases hu : (s.beginTick n).instructionStep with
    | next u =>
      rw [hu, afterInstruction_next] at ht
      cases ht
      exact hP.endTick (hP.instructionStep (s := s.beginTick n) hr hbegin hu)
    | fault f => rw [hu] at ht; cases ht
    | refused r => rw [hu] at ht; cases ht

theorem load {s : State} (bytes : List Byte) (h : P s) : P (s.load bytes) := by
  by_cases hfits : 0x200 + bytes.length ≤ 4096
  · rw [load_ok s hfits]; exact hP.env _ (hP.image s bytes hfits h)
  · rw [load_overflow s (by omega)]; exact hP.env _ h

theorem keySymbol {s : State} (c : Char) (h : P s) : P (s.keySymbol c) := by
  rw [keySymbol_eq]; exact hP.env (s.keySymbol c).env (hP.keys s (s.keySymbol c).keys h)

theorem step {s t : State} (h : P s) (hst : Machine.step s = .next t) : P t := by
  rw [step_eq, nextAction_state] at hst
  have hstart : P { s with env := s.nextAction.2.env } := hP.env _ h
  cases ha : s.nextAction.1 <;> rw [ha] at hst
  case construct => cases hst; exact hP.construct _ hstart
  case load bytes => cases hst; exact hP.load bytes hstart
  case pushKey k => cases hst; exact hP.env _ (hP.keys _ _ hstart)
  case keySymbol c => cases hst; exact hP.keySymbol c hstart
  case tick n => exact hP.tick n hstart hst

end KeptByParts

/-- The parameters are what they were: no part of a step writes them. -/
theorem params_keptByParts (p : Params) : KeptByParts fun s => s.params = p where
  outside _ _ _ _ h := h
  construct _ h := h
  image _ _ _ h := h
  keys _ _ h := h
  keyTaken _ _ _ _ h := h
  fetchFault _ _ h := h
  fetch _ _ h := h
  exec _ _ _ _ _ h hexec := (exec_frame hexec).params.trans h

/-- Settles O57: for the value the parameters have before the step. -/
theorem noTransactionWritesTheParameters : Obligations.NoTransactionWritesTheParameters := by
  intro s t h
  exact (params_keptByParts s.params).step rfl h

end Sys2Proof.Machine
end

section
/-! The invariant of the machine: what an instruction does to memory as data, to `pc`, to the call stack and to the fault
record (R37, R40, R49, R60, R232). -/

namespace Sys2Proof.Machine

/-- An instruction leaves memory as it is, or it stores a run of bytes from `I` that lies inside memory (R66, R71). -/
theorem mem_of_exec {i : Instr} {s t : State} (h : exec i s = .next t) :
    t.mem = s.mem ∨ ∃ us, s.i.toNat + us.length ≤ 4096 ∧ t.mem = s.mem.writeList s.i.toNat us := by
  cases i with
  | storeBcd x =>
    by_cases hin : s.i.toNat + 2 < 4096
    · cases (exec_storeBcd_inside x hin).symm.trans h
      exact .inr ⟨bcdDigits (s.getV x), by rw [bcdDigits_length]; omega, rfl⟩
    · cases (exec_storeBcd_outside x (by omega)).symm.trans h; exact .inl rfl
  | storeRegs x =>
    by_cases hin : s.i.toNat + x.val < 4096
    · cases (exec_storeRegs_inside x hin).symm.trans h
      exact .inr ⟨s.transferBytes x, by rw [transferBytes_length]; omega, by rw [afterTransfer_eq]; rfl⟩
    · cases (exec_storeRegs_outside x (by omega)).symm.trans h; exact .inl rfl
  | loadRegs x =>
    by_cases hin : s.i.toNat + x.val < 4096
    · cases (exec_loadRegs_inside x hin).symm.trans h
      exact .inl (by rw [afterTransfer_eq]; exact loadTransfer_mem s x)
    · cases (exec_loadRegs_outside x (by omega)).symm.trans h; exact .inl rfl
  | drawSprite x y n =>
    by_cases hin : n.val = 0 ∨ s.i.toNat + (n.val - 1) < 4096
    · cases (exec_drawSprite_inside x y hin).symm.trans h; exact .inl rfl
    · cases (exec_drawSprite_outside x y (by omega)).symm.trans h; exact .inl rfl
  | ret | callSubroutine => cases h; split <;> exact .inl rfl
  | skipIfEqImm | skipIfNeImm | skipIfEqReg | skipIfNeReg => cases h; rw [skipIf_eq]; exact .inl rfl
  | orRegs | andRegs | xorRegs => cases h; rw [writeLogic_eq]; exact .inl rfl
  | skipIfKey x | skipIfNotKey x =>
    obtain ⟨-, rfl⟩ | ⟨ks, -, c, -, rfl⟩ := exec_keySkip_cases (x := x) (by simp) h
    · exact .inl rfl
    · rw [skipIf_eq]; exact .inl rfl
  | loadKey x => obtain ⟨-, rfl⟩ | ⟨ks, k, -, rfl⟩ := exec_loadKey_cases h <;> exact .inl rfl
  | _ => cases h; exact .inl rfl

theorem mem_wf_of_exec {i : Instr} {s t : State} (hs : s.mem.wf) (h : exec i s = .next t) : t.mem.wf := by
  obtain hsame | ⟨us, hin, hstore⟩ := mem_of_exec h
  · rwa [hsame]
  · rw [hstore]; exact Memory.wf_writeList hs hin

theorem toNat_add_two_le (a : Word16) : (a + 2).toNat ≤ a.toNat + 2 := by
  rw [BitVec.toNat_add]; exact Nat.mod_le _ _

/-- `pc` after an instruction: at most the highest target of `JP V0, nnn` (R36, R37). -/
theorem pc_le_of_exec {i : Instr} {s t : State} (hpc : s.pc.toNat ≤ 0x1000) (hret : ∀ j, (s.getS j).toNat ≤ 0x1000)
    (h : exec i s = .next t) : t.pc.toNat ≤ 0x10FE := by
  by_cases hne : t.pc = s.pc
  · rw [hne]; omega
  · have hchange := pcChangesOnlyByTransfersAndSkips.2 i s t h hne
    have hskip := toNat_add_two_le s.pc
    cases i with
    | jump nnn | callSubroutine nnn => have := nnn.isLt; dsimp only at hchange; omega
    | jumpOffset nnn x =>
      dsimp only at hchange
      generalize (if s.params.jumpOffsetUsesVx then s.getV x else s.getV 0) = v at hchange
      have := nnn.isLt
      have := v.isLt
      omega
    | ret => dsimp only at hchange; have := hret s.sp; rw [hchange]; omega
    | skipIfEqImm | skipIfNeImm | skipIfEqReg | skipIfNeReg | skipIfKey | skipIfNotKey =>
      dsimp only at hchange; rw [hchange]; omega
    | _ => exact hchange.elim

/-- A call-stack entry after an instruction is what it was, or, above `S[0]`, the return address of a call (R40, R121). -/
theorem getS_of_exec {i : Instr} {s t : State} (h : exec i s = .next t) (j : Fin 16) :
    t.getS j = s.getS j ∨ (j ≠ 0 ∧ t.getS j = s.pc) := by
  by_cases hne : t.getS j = s.getS j
  · exact .inl hne
  · obtain ⟨-, -, hcall, -⟩ := controlRegistersChangeOnlyByTheirWriters i s t h
    obtain ⟨nnn, rfl⟩ := hcall ⟨j, hne⟩
    by_cases hfull : s.sp.val = 15
    · cases (exec_callSubroutine_full nnn hfull).symm.trans h; exact absurd rfl hne
    · have hlt : s.sp.val < 15 := by omega
      cases (exec_callSubroutine_of_lt nnn hlt).symm.trans h
      have hpush : ((s.push s.pc).setPc (addr16 nnn)).getS j = if j = s.sp + 1 then s.pc else s.getS j :=
        getS_push s s.pc j
      by_cases hj : j = s.sp + 1
      · have hsp : (s.sp + 1).val = s.sp.val + 1 := Fin.val_add_one_of_lt hlt
        refine .inr ⟨fun e => ?_, by rw [hpush, if_pos hj]⟩
        rw [hj, ← Fin.val_eq_zero_iff, hsp] at e
        omega
      · exact absurd (by rw [hpush, if_neg hj]) hne

/-- The record of every execution fault says what its cause says (R232). -/
theorem faultOf_consistent {s : State} {i : Instr} {c : Cause} {a : Nat} (h : faultOf s i = some (c, a)) (p : Word16) :
    c ≠ .none ∧ FaultRecord.consistent ⟨c, p, BitVec.ofNat 16 a⟩ := by
  have hbound : Config.memSize ≤ (BitVec.ofNat 16 (max s.i.toNat 0x1000)).toNat := by
    rw [BitVec.toNat_ofNat, Config.memSize]; omega
  cases i with
  | callSubroutine | ret =>
    obtain ⟨-, h⟩ := Option.ite_none_right_eq_some.mp h
    cases h
    exact ⟨nofun, rfl⟩
  | drawSprite | loadRegs | storeBcd | storeRegs =>
    obtain ⟨-, h⟩ := Option.ite_none_right_eq_some.mp h
    cases h
    exact ⟨nofun, hbound⟩
  | _ => nomatch h

/-- An instruction run from `Running` ends in `Faulted` exactly when the record holds a cause, with the address that cause
has (R49, R231). -/
theorem faulted_iff_of_exec {i : Instr} {s t : State} (hr : s.run = .running) (hs : s.fault.cause = .none)
    (hrec : s.fault.consistent) (h : exec i s = .next t) :
    (t.run = .faulted ↔ t.fault.cause ≠ .none) ∧ t.fault.consistent := by
  obtain ⟨c, a, hfault, -, hexec⟩ | ⟨-, u, hexec, hrun, hfault⟩ := exec_cases_faultOf i (s := s) (by simp [hr])
  · cases hexec.symm.trans h
    obtain ⟨hc, hcons⟩ := faultOf_consistent hfault (s.pc - 2)
    exact ⟨iff_of_true rfl hc, hcons⟩
  · cases hexec.symm.trans h
    rw [hfault]
    exact ⟨iff_of_false hrun (not_not.mpr hs), hrec⟩

end Sys2Proof.Machine
end

section
/-! The statements about the invariant: it holds at reset, and every step keeps it. -/

namespace Sys2Proof.Machine

/-- The invariant after `construct`, and at reset: whatever canonical memory stands under the reset registers. -/
theorem stateInv_reset_with {m : Memory} (hm : m.wf) (p : Params) (e : Env) :
    StateInv { State.reset with mem := m, params := p, env := e } where
  memory := hm
  pc := (by decide : (0x200 : Word16).toNat ≤ 0x10FE)
  returns j := (congrArg BitVec.toNat (getS_reset j)).trans_le (Nat.zero_le _)
  slotZero := getS_reset 0
  faulted := iff_of_false nofun (not_not.mpr rfl)
  record := rfl

/-- Settles O52: memory at reset lists nothing. -/
theorem resetMeetsTheInvariant : Obligations.ResetMeetsTheInvariant :=
  stateInv_reset_with Memory.wf_nil .default _

/-- Past a word inside memory `pc` is at most the end of memory (R37). -/
theorem advance_pc_le {s : State} (hpc : s.pc.toNat + 1 < 4096) : s.advance.pc.toNat ≤ 0x1000 :=
  (toNat_add_two_le s.pc).trans (by omega)

namespace StateInv

variable {s : State} (h : StateInv s)
include h

/-- The core has not faulted, so the record holds no cause. -/
theorem cause_none (hr : s.run ≠ .faulted) : s.fault.cause = .none :=
  not_not.mp fun hc => hr (h.faulted.mpr hc)

theorem raiseFetch (hpc : ¬s.pc.toNat + 1 < 4096) : StateInv s.raiseFetch where
  memory := h.memory
  pc := h.pc
  returns := h.returns
  slotZero := h.slotZero
  faulted := iff_of_true rfl nofun
  record := by
    have := s.pc.isLt
    rw [State.raiseFetch, raiseFault_fault, FaultRecord.consistent, BitVec.toNat_ofNat]
    simp only [Config.memSize]
    omega

theorem advance (hpc : s.pc.toNat + 1 < 4096) : StateInv s.advance where
  memory := h.memory
  pc := (advance_pc_le hpc).trans (by decide)
  returns := h.returns
  slotZero := h.slotZero
  faulted := h.faulted
  record := h.record

theorem exec {t : State} {i : Instr} (hr : s.run = .running) (hpc : s.pc.toNat ≤ 0x1000)
    (hexec : Machine.exec i s = .next t) : StateInv t := by
  obtain ⟨hfaulted, hrecord⟩ := faulted_iff_of_exec hr (h.cause_none (by simp [hr])) h.record hexec
  refine ⟨mem_wf_of_exec h.memory hexec, pc_le_of_exec hpc h.returns hexec, fun j => ?returns, ?slotZero, hfaulted, hrecord⟩
  case returns =>
    obtain hsame | ⟨-, hcall⟩ := getS_of_exec hexec j
    · rw [hsame]; exact h.returns j
    · rwa [hcall]
  case slotZero =>
    obtain hsame | ⟨hne, -⟩ := getS_of_exec hexec 0
    · rw [hsame]; exact h.slotZero
    · exact absurd rfl hne

end StateInv

theorem stateInv_keptByParts : KeptByParts StateInv where
  outside _ _ _ _ h := ⟨h.memory, h.pc, h.returns, h.slotZero, h.faulted, h.record⟩
  construct s _ := stateInv_reset_with (wf_fontMemory s.params) s.params _
  image _ _ hfits h := ⟨Memory.wf_writeList h.memory hfits, h.pc, h.returns, h.slotZero, h.faulted, h.record⟩
  keys _ _ h := ⟨h.memory, h.pc, h.returns, h.slotZero, h.faulted, h.record⟩
  keyTaken _ _ _ hr h :=
    ⟨h.memory, h.pc, h.returns, h.slotZero, iff_of_false nofun (not_not.mpr (h.cause_none (by simp [hr]))), h.record⟩
  fetchFault _ hpc h := h.raiseFetch hpc
  fetch _ hpc h := h.advance hpc
  exec _ _ _ hr hpc h hexec := (h.advance hpc).exec hr (advance_pc_le hpc) hexec

/-- Settles O53: the invariant is kept by every part of a step. -/
theorem everyStepKeepsTheInvariant : Obligations.EveryStepKeepsTheInvariant := by
  intro s t hs h
  exact stateInv_keptByParts.step hs h

end Sys2Proof.Machine
end

section
/-! The canonical form of memory (R60; log entry 4): it lists exactly the addresses that read otherwise than unlisted, so it
is determined by what memory reads as. -/

namespace Sys2Proof.Machine

namespace Memory

/-- Of rising addresses an entry is the first of its address, so its address reads as its byte. -/
theorem read_of_mem {m : Memory} (hm : m.Pairwise fun c d => c.1 < d.1) {c : Host.Cell} (hc : c ∈ m) : m.read c.1 = c.2 := by
  induction m with
  | nil => nomatch hc
  | cons d m ih =>
    obtain ⟨hd, hm⟩ := List.pairwise_cons.mp hm
    rcases List.mem_cons.mp hc with rfl | hc
    · simp [read]
    · rw [read, if_neg (Nat.ne_of_lt (hd c hc)), ih hm hc]

/-- An address that reads otherwise than unlisted is listed, with the byte it reads. -/
theorem mem_of_read_ne {m : Memory} {a : Nat} (h : m.read a ≠ resetByte a) : (a, m.read a) ∈ m := by
  induction m with
  | nil => exact absurd rfl h
  | cons d m ih =>
    obtain ⟨b, u⟩ := d
    rw [read] at h ⊢
    split at h
    case isTrue hb => subst hb; simp
    case isFalse hb => rw [if_neg hb]; exact List.mem_cons_of_mem _ (ih h)

theorem mem_iff_of_wf {m : Memory} (hm : m.wf) (c : Host.Cell) : c ∈ m ↔ c.2 ≠ resetByte c.1 ∧ m.read c.1 = c.2 := by
  obtain ⟨hrising, hentry⟩ := hm
  constructor
  · exact fun hc => ⟨(hentry c hc).2, read_of_mem hrising hc⟩
  · rintro ⟨hne, hread⟩
    have hlisted := mem_of_read_ne (hread.trans_ne hne)
    rwa [hread] at hlisted

end Memory

/-- Settles O54: memories in canonical form that read the same have the same entries, and rising lists with the same entries
are equal. -/
theorem canonicalMemoriesAreEqualWhenTheyReadEqual : Obligations.CanonicalMemoriesAreEqualWhenTheyReadEqual := by
  intro m n hm hn hread
  have hantisymm : Std.Antisymm fun c d : Host.Cell => c.1 < d.1 := ⟨fun _ _ h h' => absurd h' (Nat.lt_asymm h)⟩
  have hirrefl : Std.Irrefl fun c d : Host.Cell => c.1 < d.1 := ⟨fun c => Nat.lt_irrefl c.1⟩
  refine List.Pairwise.eq_of_mem_iff hm.1 hn.1 fun c => ?_
  rw [Memory.mem_iff_of_wf hm, Memory.mem_iff_of_wf hn, hread]

end Sys2Proof.Machine
end

section
/-! Ticking empty memory (R266): from a reset core whose host issues nothing, every tick below the top of memory executes the
word 0x0000, a decode failure. -/

namespace Sys2Proof.Machine

theorem run_succ_of_step {M : Host.Core} {s u : M.State} (h : M.step s = .next u) (k : Nat) :
    M.run (k + 1) s = M.run k u := by
  rw [Host.Core.run, h]

/-- Nothing stands in memory, nothing is scripted, and the core runs, with `pc` above the font. -/
structure Idle (s : State) : Prop where
  mem : s.mem = []
  host : s.env.host = []
  run : s.run = .running
  params : s.params = .default
  pc : 0x200 ≤ s.pc.toNat

theorem idle_reset : Idle State.reset := ⟨rfl, rfl, rfl, rfl, by decide⟩

namespace Idle

variable {s : State} (h : Idle s)
include h

theorem nextAction_fst : s.nextAction.1 = .tick (Config.freeInputs s.env.draws) := by rw [nextAction_nil h.host]

theorem memByte_above {a : Nat} (ha : 0x50 ≤ a) : s.memByte a = 0 := by
  rw [State.memByte, h.mem]; exact resetByte_above_font ha

theorem decode_word :
    decode s.params (s.memByte s.pc.toNat ++ s.memByte (s.pc.toNat + 1)) = .decodeFailure 0x0000 := by
  have hpc := h.pc
  rw [h.memByte_above (by omega), h.memByte_above (by omega), h.params]; rfl

/-- A tick below the top of memory advances `pc` and leaves the core as it was, but for the draws and the output. -/
theorem step (hpc : s.pc.toNat + 1 < 4096) : ∃ t, Machine.step s = .next t ∧ Idle t ∧ t.pc.toNat = s.pc.toNat + 2 := by
  have hadvance : (s.pc + 2).toNat = s.pc.toNat + 2 := by
    rw [BitVec.toNat_add]; exact Nat.mod_eq_of_lt (Nat.add_lt_add_right (by omega : s.pc.toNat < 65534) 2)
  have habove : 0x200 ≤ (s.pc + 2).toNat := hadvance ▸ h.pc.trans (Nat.le_add_right _ 2)
  refine ⟨_, step_tick_decodeFailure h.nextAction_fst h.run hpc h.decode_word, ?_, hadvance⟩
  rw [nextAction_nil h.host]
  exact ⟨h.mem, h.host, h.run, h.params, habove⟩

/-- `k` ticks take a `pc` that is `2 k` below the top of memory to the top. -/
theorem run_to_top {k : Nat} (hk : s.pc.toNat + 2 * k = 4096) :
    ∃ t, Idle t ∧ t.pc.toNat = 4096 ∧ ∀ l, Host.Core.run Sys2Proof.core (k + l) s = Host.Core.run Sys2Proof.core l t := by
  induction k generalizing s with
  | zero => exact ⟨s, h, hk, fun l => by rw [Nat.zero_add]⟩
  | succ k ih =>
    obtain ⟨u, hstep, hu, hpc⟩ := h.step (by omega)
    obtain ⟨t, ht, htop, hrun⟩ := ih hu (by omega)
    refine ⟨t, ht, htop, fun l => ?_⟩
    rw [Nat.add_right_comm, run_succ_of_step (M := Sys2Proof.core) hstep, hrun]

end Idle

/-- Settles O58: 1792 ticks from 0x200 reach the top of memory, where the fetch of the next one faults. -/
theorem tickingEmptyMemoryFaultsAtTheTop : Obligations.TickingEmptyMemoryFaultsAtTheTop := by
  obtain ⟨t, ht, htop, hrun⟩ := idle_reset.run_to_top (k := 1792) rfl
  have hpc : t.pc = 0x1000 := BitVec.eq_of_toNat_eq htop
  have hfault : step t = .next _ := step_tick_cannotFetch ht.nextAction_fst ht.run (by omega)
  refine ⟨⟨t, hrun 0, hpc, ht.run⟩, ⟨_, (hrun 1).trans (run_succ_of_step (M := Sys2Proof.core) hfault 0), rfl, ?_⟩⟩
  simp [State.raiseFetch, hpc, Config.memSize]

end Sys2Proof.Machine
end

section
/-! Which words fail to decode (R86 to R90), class by class. -/

namespace Sys2Proof

theorem fieldKk_eq_iff (w : Word16) (kk : Byte) : fieldKk w = kk ↔ w.toNat % 256 = kk.toNat := by
  rw [← BitVec.toNat_inj, fieldKk_toNat]

/-- The low byte of a word, as the selector of class 0x0 under `P_CLASS0_LOWBYTE_ONLY` (R87). -/
theorem and_lowByte_eq_iff (w : Word16) (kk : Byte) : w &&& 0x00FF = encodeXkk 0 0 kk ↔ w.toNat % 256 = kk.toNat := by
  rw [and_lowByteMask, ← BitVec.toNat_inj, encodeXkk_toNat, encodeXkk_toNat, ← fieldKk_toNat]
  exact Nat.add_left_cancel_iff

theorem decodeClass0_fullWord {p : Params} (h : p.class0LowbyteOnly = false) (w : Word16) :
    decodeClass0 p w =
      if w = 0x00E0 then .instr .clearDisplay else if w = 0x00EE then .instr .ret else .decodeFailure w := by
  simp only [decodeClass0, h, Bool.false_eq_true, if_false]

theorem decodeClass0_lowByte {p : Params} (h : p.class0LowbyteOnly = true) (w : Word16) :
    decodeClass0 p w =
      if w.toNat % 256 = 0xE0 then .instr .clearDisplay
      else if w.toNat % 256 = 0xEE then .instr .ret else .decodeFailure w := by
  have hcls : w &&& 0x00FF = 0x00E0 ↔ w.toNat % 256 = 0xE0 := and_lowByte_eq_iff w 0xE0
  have hret : w &&& 0x00FF = 0x00EE ↔ w.toNat % 256 = 0xEE := and_lowByte_eq_iff w 0xEE
  simp only [decodeClass0, h, if_true, hcls, hret]

theorem decodeClass0_failure_iff (p : Params) (w : Word16) :
    decodeClass0 p w = .decodeFailure w ↔
      (p.class0LowbyteOnly = false ∧ w ≠ 0x00E0 ∧ w ≠ 0x00EE) ∨
      (p.class0LowbyteOnly = true ∧ w.toNat % 256 ≠ 0xE0 ∧ w.toNat % 256 ≠ 0xEE) := by
  cases h : p.class0LowbyteOnly
  case false => rw [decodeClass0_fullWord h]; split_ifs <;> simp_all
  case true => rw [decodeClass0_lowByte h]; split_ifs <;> simp_all

theorem decodeSkipReg_failure_iff (p : Params) (i : Instr) (w : Word16) :
    decodeSkipReg p i w = .decodeFailure w ↔ p.skipRegStrict = true ∧ w.toNat % 16 ≠ 0 := by
  have hn : fieldN w ≠ 0 ↔ w.toNat % 16 ≠ 0 := by rw [← fieldN_val, Ne, Ne, Fin.val_eq_zero_iff]
  rw [decodeSkipReg_eq, ← hn]
  split_ifs with h <;> simp [h]

theorem decodeClass8_failure_iff (w : Word16) :
    decodeClass8 w = .decodeFailure w ↔ w.toNat % 16 ∈ [0x8, 0x9, 0xA, 0xB, 0xC, 0xD, 0xF] := by
  rw [← fieldN_val, decodeClass8]
  generalize fieldN w = n
  fin_cases n <;> simp

theorem decodeClassE_failure_iff (w : Word16) :
    decodeClassE w = .decodeFailure w ↔ w.toNat % 256 ∉ [0x9E, 0xA1] := by
  simp only [decodeClassE, fieldKk_eq_iff]
  split_ifs <;> simp_all

theorem decodeClassF_failure_iff (w : Word16) :
    decodeClassF w = .decodeFailure w ↔
      w.toNat % 256 ∉ [0x07, 0x0A, 0x15, 0x18, 0x1E, 0x29, 0x33, 0x55, 0x65] := by
  simp only [decodeClassF, fieldKk_eq_iff]
  split_ifs <;> simp_all

end Sys2Proof
end

section
/-! The statements about the decoder (30_encoding.md sections 1 and 2). -/

namespace Sys2Proof

/-- With `P_CLASS0_LOWBYTE_ONLY` the words of class 0x0 with the low bytes of `CLS` and `RET` are those instructions (R87). -/
theorem decode_class0_lowByte {p : Params} {w : Word16} (hc : w.toNat / 4096 = 0x0) (hp : p.class0LowbyteOnly = true) :
    (w.toNat % 256 = 0xE0 → decode p w = .instr .clearDisplay) ∧
    (w.toNat % 256 = 0xEE → decode p w = .instr .ret) := by
  have hclass : fieldClass w = 0x0 := Fin.ext ((fieldClass_val w).trans hc)
  simp only [decode, hclass, decodeClass0_lowByte hp]
  exact ⟨fun h => by simp [h], fun h => by simp [h]⟩

/-- The classes with a selector fail as their own decoders do; the words of the others all decode. -/
theorem decode_failure_iff (p : Params) (w : Word16) :
    decode p w = .decodeFailure w ↔
      (w.toNat / 4096 = 0x0 ∧ p.class0LowbyteOnly = false ∧ w ≠ 0x00E0 ∧ w ≠ 0x00EE) ∨
      (w.toNat / 4096 = 0x0 ∧ p.class0LowbyteOnly = true ∧ w.toNat % 256 ≠ 0xE0 ∧ w.toNat % 256 ≠ 0xEE) ∨
      ((w.toNat / 4096 = 0x5 ∨ w.toNat / 4096 = 0x9) ∧ p.skipRegStrict = true ∧ w.toNat % 16 ≠ 0) ∨
      (w.toNat / 4096 = 0x8 ∧ w.toNat % 16 ∈ [0x8, 0x9, 0xA, 0xB, 0xC, 0xD, 0xF]) ∨
      (w.toNat / 4096 = 0xE ∧ w.toNat % 256 ∉ [0x9E, 0xA1]) ∨
      (w.toNat / 4096 = 0xF ∧ w.toNat % 256 ∉ [0x07, 0x0A, 0x15, 0x18, 0x1E, 0x29, 0x33, 0x55, 0x65]) := by
  rw [← decodeClass8_failure_iff, ← decodeClassE_failure_iff, ← decodeClassF_failure_iff, ← fieldClass_val, decode]
  generalize fieldClass w = c
  fin_cases c <;> simp [decodeClass0_failure_iff, decodeSkipReg_failure_iff]

/-- Settles O50: class by class; a failure carries its word. -/
theorem decodeFailsExactlyOnTheseWords : Obligations.DecodeFailsExactlyOnTheseWords := by
  intro p w
  refine ⟨?cls, ?ret, decode_class0_lowByte, fun v => decodeFailure_word, decode_failure_iff p w⟩
  case cls => rintro rfl; exact Machine.decode_clearDisplay p
  case ret => rintro rfl; exact decode_ret p

/-- Settles O49: each word is decoded. -/
theorem exampleWordsDecodeAsTheSpecSays : Obligations.ExampleWordsDecodeAsTheSpecSays := by
  unfold Obligations.ExampleWordsDecodeAsTheSpecSays
  decide

end Sys2Proof
end

section
/-! The two parts of the state that instructions leave unread: the sound timer, which none reads (R42), and the
environment's side, of which `RND` alone reads the latched inputs (R8, R157). Every shared operation takes the same course
whatever stands there. -/

namespace Sys2Proof.Machine

/-- The state with another sound timer and another environment's side. -/
def State.withUnread (s : State) (b : Byte) (e : Env) : State := { s with st := b, env := e }

section
variable (s : State) (b : Byte) (e : Env)

theorem skipIf_withUnread (c : Bool) : (s.withUnread b e).skipIf c = (s.skipIf c).withUnread b e := by
  cases c <;> rfl

theorem writeLogic_withUnread (x : RegIdx) (r : Byte) :
    (s.withUnread b e).writeLogic x r = (s.writeLogic x r).withUnread b e := by
  rw [State.writeLogic, State.writeLogic, apply_ite (State.withUnread · b e)]; rfl

theorem afterTransfer_withUnread (x : RegIdx) :
    (s.withUnread b e).afterTransfer x = (s.afterTransfer x).withUnread b e := by
  rw [State.afterTransfer, State.afterTransfer, apply_ite (State.withUnread · b e)]; rfl

theorem guardRange_withUnread (c : Cause) (len : Nat) (u : State) :
    (s.withUnread b e).guardRange c len (u.withUnread b e) = (s.guardRange c len u).withUnread b e := by
  obtain ⟨hin, hu⟩ | ⟨h0, hout, hf⟩ := guardRange_cases s c len u
  · rw [hu]; exact guardRange_inside c _ hin
  · rw [hf]; exact guardRange_outside c _ h0 hout

end

/-- An instruction that neither writes the sound timer nor reads the tick's inputs does the same whatever stands there. -/
theorem exec_withUnread {i : Instr} (hsound : ∀ x, i ≠ .setSound x) (hrandom : ∀ x kk, i ≠ .randomAnd x kk) {s t : State}
    (b : Byte) (e : Env) (h : exec i s = .next t) : exec i (s.withUnread b e) = .next (t.withUnread b e) := by
  cases i with
  | setSound x => exact absurd rfl (hsound x)
  | randomAnd x kk => exact absurd rfl (hrandom x kk)
  | ret | callSubroutine =>
    cases h
    rw [apply_ite (State.withUnread · b e)]; rfl
  | skipIfEqImm | skipIfNeImm | skipIfEqReg | skipIfNeReg =>
    cases h
    exact congrArg Host.Outcome.next (skipIf_withUnread s b e _)
  | orRegs | andRegs | xorRegs =>
    cases h
    exact congrArg Host.Outcome.next (writeLogic_withUnread s b e _ _)
  | drawSprite | storeBcd =>
    cases h
    rw [← guardRange_withUnread]; rfl
  | storeRegs | loadRegs =>
    cases h
    rw [← guardRange_withUnread, ← afterTransfer_withUnread]; rfl
  | skipIfKey x =>
    obtain ⟨hkeys, -⟩ | ⟨ks, k, hkeys, -⟩ := keyPop_cases s
    · cases (exec_skipIfKey_nil x hkeys).symm.trans h; exact exec_skipIfKey_nil x hkeys
    · cases (exec_skipIfKey_concat x hkeys).symm.trans h
      rw [← skipIf_withUnread]; exact exec_skipIfKey_concat x hkeys
  | skipIfNotKey x =>
    obtain ⟨hkeys, -⟩ | ⟨ks, k, hkeys, -⟩ := keyPop_cases s
    · cases (exec_skipIfNotKey_nil x hkeys).symm.trans h; exact exec_skipIfNotKey_nil x hkeys
    · cases (exec_skipIfNotKey_concat x hkeys).symm.trans h
      rw [← skipIf_withUnread]; exact exec_skipIfNotKey_concat x hkeys
  | loadKey x =>
    obtain ⟨hkeys, -⟩ | ⟨ks, k, hkeys, -⟩ := keyPop_cases s
    · cases (exec_loadKey_nil x hkeys).symm.trans h; exact exec_loadKey_nil x hkeys
    · cases (exec_loadKey_concat x hkeys).symm.trans h; exact exec_loadKey_concat x hkeys
  | _ => cases h; rfl

theorem exec_st {i : Instr} (hsound : ∀ x, i ≠ .setSound x) {s t : State} (h : exec i s = .next t) : t.st = s.st := by
  obtain ⟨-, -, -, -, hst⟩ := controlRegistersChangeOnlyByTheirWriters i s t h
  by_contra hne
  obtain ⟨x, rfl⟩ := hst hne
  exact hsound x rfl

end Sys2Proof.Machine
end

section
/-! The statements about what instructions do not read. -/

namespace Sys2Proof.Machine

/-- Settles O55: `LD ST, Vx` writes the sound timer from a register, `RND` is one `setV`, and the others are
`exec_withUnread` with the environment's side as it is. -/
theorem noInstructionReadsTheSoundTimer : Obligations.NoInstructionReadsTheSoundTimer := by
  intro i s b
  by_cases hsound : ∃ x, i = .setSound x
  · obtain ⟨x, rfl⟩ := hsound
    exact ⟨_, _, rfl, rfl, .inl ⟨⟨x, rfl⟩, rfl⟩⟩
  · rw [not_exists] at hsound
    obtain ⟨t, h, -⟩ := exec_cases i s
    refine ⟨t, b, h, ?_, .inr ⟨hsound, exec_st hsound h, rfl⟩⟩
    by_cases hrandom : ∃ x kk, i = .randomAnd x kk
    · obtain ⟨x, kk, rfl⟩ := hrandom
      cases h
      rfl
    · calc exec i { s with st := b } = .next (t.withUnread b s.env) :=
            exec_withUnread hsound (fun x kk e => hrandom ⟨x, kk, e⟩) b s.env h
        _ = .next { t with st := b } := by rw [← exec_env h]; rfl

/-- Settles O56: `exec_withUnread` with the sound timer as it is; `LD ST, Vx` reads a register alone. -/
theorem onlyRandomReadsTheTickInputs : Obligations.OnlyRandomReadsTheTickInputs := by
  intro i s inp hrandom
  by_cases hsound : ∃ x, i = .setSound x
  · obtain ⟨x, rfl⟩ := hsound
    exact ⟨_, rfl, rfl⟩
  · rw [not_exists] at hsound
    obtain ⟨t, h, -⟩ := exec_cases i s
    refine ⟨t, h, ?_⟩
    calc exec i { s with env := { s.env with inputs := inp } }
        = .next (t.withUnread s.st { s.env with inputs := inp }) := exec_withUnread hsound hrandom s.st _ h
      _ = .next { t with env := { t.env with inputs := inp } } := by rw [← exec_st hsound h, ← exec_env h]; rfl

end Sys2Proof.Machine
end

section
/-! The forms of the ALU instructions with `x = y`, and what a flag can be (R153, R155, R156). -/

namespace Sys2Proof.Machine

theorem setV_getV_self (s : State) (x : RegIdx) : s.setV x (s.getV x) = s := by
  simp [State.setV, State.getV, Vector.get_eq_getElem]

theorem exec_setReg_self (s : State) (x : RegIdx) : exec (.setReg x x) s = .next s :=
  congrArg Host.Outcome.next (setV_getV_self s x)

/-- OR and AND of a register with itself write back what it holds. -/
theorem writeLogic_getV_self {s : State} (x : RegIdx) (h : s.params.logicResetsVf = false) :
    s.writeLogic x (s.getV x) = s := by
  rw [writeLogic_eq_setV x _ h, setV_getV_self]

/-- XOR of a register with itself writes 0; with `P_LOGIC_RESETS_VF` so does the reset of VF, whichever register it is. -/
theorem getV_writeLogic_zero (s : State) (x : RegIdx) : (s.writeLogic x 0).getV x = 0 := by
  rw [getV_writeLogic, if_pos rfl, ite_self]

theorem flagByte_eq_zero_or_one (f : Bool) : flagByte f = 0 ∨ flagByte f = 1 := by cases f <;> decide

theorem flagByte_eq_one_iff (f : Bool) : flagByte f = 1 ↔ f = true := by cases f <;> decide

/-- Settles O33: each form by the value it writes; the sum of a byte with itself has bit 7 as its carry, and the two
differences are one, 0 with no borrow. -/
theorem sameRegisterFormsGiveTheirFixedResults : Obligations.SameRegisterFormsGiveTheirFixedResults := by
  intro s x
  have hv := (s.getV x).isLt
  refine ⟨_, _, _, _, _, _, _, exec_setReg_self s x, rfl, rfl, rfl, rfl, rfl, rfl, rfl, fun hkeep => ?logic, ?xor,
    fun hx => ⟨?sum, ?difference, ?difference⟩, ?carry, ?notBorrow, ?notBorrow⟩
  case logic => rw [BitVec.or_self, BitVec.and_self]; exact ⟨writeLogic_getV_self x hkeep, writeLogic_getV_self x hkeep⟩
  case xor => rw [BitVec.xor_self]; exact getV_writeLogic_zero s x
  case sum => rw [getV_writeWithFlag_dest s _ hx, addWithCarry_result, Nat.two_mul]
  case difference => rw [getV_writeWithFlag_dest s _ hx]; exact BitVec.sub_self _
  case carry => rw [getV_writeWithFlag_VF, addWithCarry_flag]; split <;> simp <;> omega
  case notBorrow => rw [getV_writeWithFlag_VF, subNotBorrow_flag, if_pos (Nat.le_refl _)]

/-- Settles O34: VF is a flag as a byte, or 0; a `DRW` that ends in `Running` did not fault. -/
theorem flagSettersLeaveZeroOrOne : Obligations.FlagSettersLeaveZeroOrOne := by
  intro i s t hflag hs h ht
  cases i with
  | addRegs | subRegs | subReversed | shiftRight | shiftLeft =>
    cases h
    rw [getV_writeWithFlag_VF]
    exact flagByte_eq_zero_or_one _
  | orRegs | andRegs | xorRegs => cases h; exact .inl (getV_writeLogic_VF _ _ hflag)
  | drawSprite x y n =>
    by_cases hin : n.val = 0 ∨ s.i.toNat + (n.val - 1) < 4096
    · cases (exec_drawSprite_inside x y hin).symm.trans h
      rw [getV_setV_same]
      exact flagByte_eq_zero_or_one _
    · cases (exec_drawSprite_outside x y (by omega)).symm.trans h
      nomatch ht
  | _ => nomatch hflag

end Sys2Proof.Machine
end

section
/-! Drawing twice (R180): the second draw sets the same sprite bits, so it undoes the first cell by cell. -/

namespace Sys2Proof.Machine

/-- The sprite bits depend on the two coordinates, on `I` and on memory. -/
theorem spriteSets_congr {s t : State} {x y : RegIdx} (hx : t.getV x = s.getV x) (hy : t.getV y = s.getV y) (hi : t.i = s.i)
    (hmem : t.mem = s.mem) (n : Fin 16) (r c : Nat) : spriteSets t x y n r c = spriteSets s x y n r c := by
  simp only [spriteSets, hx, hy, hi, memByte_congr hmem]

/-- A sprite bit falls inside the framebuffer (R175). -/
theorem spriteSets_inside {s : State} {x y : RegIdx} {n : Fin 16} {r c : Nat} (h : spriteSets s x y n r c = true) :
    r < 32 ∧ c < 64 :=
  drawnBit_inside ((drawnBit_memBytes s x y n r c).trans h)

/-- A drawn bit collides with the framebuffer after the draw exactly where the cell was unlit before. -/
theorem spriteBlit_lit_iff {s : State} {x y : RegIdx} {n : Fin 16} {r c : Nat} (h : spriteSets s x y n r c = true) :
    (s.spriteBlit x y n).1.cell r c = true ↔ s.fb.cell r c = false := by
  obtain ⟨hr, hc⟩ := spriteSets_inside h
  rw [spriteBlit_cell s x y n hr hc, h, Bool.xor_true, Bool.not_eq_true']

/-- Settles O37: the second blit works on the framebuffer that the first left, with the same sprite bits. -/
theorem drawingTwiceRestoresTheFramebuffer : Obligations.DrawingTwiceRestoresTheFramebuffer := by
  intro s t x y n hin h hx hy
  cases (exec_drawSprite_inside x y hin).symm.trans h
  have hsame := spriteSets_congr hx hy rfl rfl n
  refine ⟨_, exec_drawSprite_inside x y hin, ?restored, ?collides⟩
  case restored =>
    refine Framebuffer.ext_cells fun r c hr hc => ?_
    calc (State.spriteBlit _ x y n).1.cell r c
        = xor ((s.spriteBlit x y n).1.cell r c) (spriteSets _ x y n r c) := spriteBlit_cell _ x y n hr hc
      _ = s.fb.cell r c := by rw [hsame, spriteBlit_cell s x y n hr hc, Bool.xor_assoc, Bool.xor_self, Bool.xor_false]
  case collides =>
    rw [getV_setV_same, flagByte_eq_one_iff, spriteBlit_collides_iff]
    refine exists_congr fun r => exists_congr fun c => ?_
    rw [hsame]
    exact and_congr_right spriteBlit_lit_iff

end Sys2Proof.Machine
end

section
/-! What the transfers give back (R76, R217, R219), and the glyph that `LD F, Vx` addresses (R215, R262). -/

namespace Sys2Proof.Machine

/-- After a bulk store the bytes from the old `I` on are the registers (R217). -/
theorem memByte_of_exec_storeRegs {s t : State} {x : RegIdx} (hin : s.i.toNat + x.val < 4096)
    (h : exec (.storeRegs x) s = .next t) {j : RegIdx} (hj : j ≤ x) : t.memByte (s.i.toNat + j.val) = s.getV j := by
  cases (exec_storeRegs_inside x hin).symm.trans h
  rw [memByte_afterTransfer, memByte_storeTransfer s hj]

/-- Settles O45: the load reads the bytes that the store put there. -/
theorem storeThenLoadRestoresTheRegisters : Obligations.StoreThenLoadRestoresTheRegisters := by
  intro s x between hin
  have hstore := exec_storeRegs_inside x hin
  refine ⟨_, _, hstore, exec_loadRegs_inside x hin, fun j => ?_⟩
  rw [getV_afterTransfer, getV_loadTransfer]
  exact ite_congr rfl (fun hj => memByte_of_exec_storeRegs hin hstore hj) fun _ => rfl

/-- Settles O46: `I` is five times the digit, so its rows lie in the font. -/
theorem digitAddressPointsAtItsGlyph : Obligations.DigitAddressPointsAtItsGlyph := by
  intro s x hdigit hfont
  refine ⟨_, rfl, fun r hr => ?_⟩
  have hrow : 5 * (s.getV x).toNat + r < 80 := by omega
  have hbyte : s.memByte (5 * (s.getV x).toNat + r) = s.params.font[5 * (s.getV x).toNat + r] := hfont ⟨_, hrow⟩
  rw [setI_i, digitAddress_toNat, Vector.getElem?_eq_getElem hrow]
  exact congrArg some hbyte

/-- Settles O47: the two bytes the fetch reads are the first two that the store put from `I = pc` on. -/
theorem fetchSeesTheBytesJustStored : Obligations.FetchSeesTheBytesJustStored := by
  intro s t x hx hi hin h
  have hpc : t.pc = s.pc := (exec_frame h).pc rfl
  have hbyte {j : RegIdx} (hj : j ≤ x) : t.memByte (s.pc.toNat + j.val) = s.getV j := by
    rw [← hi] at hin ⊢
    exact memByte_of_exec_storeRegs hin h hj
  have hfirst : t.memByte s.pc.toNat = s.getV 0 := hbyte (Fin.zero_le x)
  have hsecond : t.memByte (s.pc.toNat + 1) = s.getV 1 := hbyte (j := 1) hx
  refine ⟨decide_eq_true ?_, ?_⟩
  · rw [hpc]; exact Nat.lt_of_le_of_lt (Nat.add_le_add_left hx _) hin
  · rw [State.fetchWord, hpc, hfirst, hsecond, wordOfBytes_toNat]

end Sys2Proof.Machine
end
